-- ==== Sys2Proof/Word.lean ====
section
/-! DEFINITION. The word types of the block: a byte, the 16-bit command word, the 16-bit CRC register and the line level. -/

namespace Sys2Proof

/-- The addressed unit of every space, a received character and a transmitted character: 8 bits
(20_memory.md R40, 00_scope.md R8). -/
abbrev Byte := BitVec 8

/-- The command word that presents an operation: 16 bits, one word per step (30_encoding.md R60). -/
abbrev CommandWord := BitVec 16

/-- The content of the CRC register: `CRC_WIDTH` = 16 bits (10_state.md R19). -/
abbrev CrcWord := BitVec 16

/-- The level of the output line, one bit: `false` is 0, "low", and `true` is 1, "high" (10_state.md R12). -/
abbrev Level := Bool

end Sys2Proof
end

