-- ==== Sys2Proof/Config.lean ====
section
/-! DEFINITION. What an implementation fixes: the numbers the source states, the parameters it leaves open, and the
uninterpreted GPS field parser. -/

namespace Sys2Proof

/-- The last validated set of GPS values (10_state.md R24). The spec keeps the type abstract and names its fields
"GPS fix {lat, lon, alt, satellites, fix-valid}"; 00_scope.md R5 adds the time. DESIGN CHOICE (log 7, safe): the
fields are integers that stand for codes, so that every countable representation has a place here; `other` holds
whatever else the abstract type may hold. Nothing in the model computes with a field. -/
structure Snapshot where
  lat        : Int
  lon        : Int
  alt        : Int
  satellites : Nat
  fixValid   : Bool
  time       : Int
  other      : List Byte
  deriving DecidableEq, Repr, Inhabited

/-- "The sentinel zero triple" of 42_nmea.md R146: latitude, longitude and altitude are all zero. -/
abbrev Snapshot.zeroTriple (s : Snapshot) : Prop := s.lat = 0 ∧ s.lon = 0 ∧ s.alt = 0

/-- The snapshot with its position and altitude at the sentinel zero triple and every other field kept. -/
def Snapshot.forceZero (s : Snapshot) : Snapshot := { s with lat := 0, lon := 0, alt := 0 }

namespace Config

/-- `CHAR_BITS`: data bits per character (00_scope.md R7). -/
def charBits : Nat := 8

/-- `STOP_BITS`: stop bits per character (00_scope.md R7). -/
def stopBits : Nat := 2

/-- `BITS_PER_CHAR`: ticks per character, 1 start bit, the data bits and the stop bits (00_scope.md R7). -/
def bitsPerChar : Nat := 1 + charBits + stopBits

/-- `CRC_POLY`: the CRC polynomial without its x^16 term (00_scope.md R7, log 17). -/
def crcPoly : CrcWord := 0x1021#16

/-- `CRC_INIT`: the value the operation CRC_INIT loads (00_scope.md R7, log 17). -/
def crcInitValue : CrcWord := 0xFFFF#16

/-- `START_MARKER`: the NMEA start byte `$`, also the preamble marker of a telemetry sentence
(00_scope.md R7, 30_encoding.md R70, log 17). -/
def startMarker : Byte := 0x24#8

/-- `CS_MARKER`: the checksum marker byte `*` of both sentence formats (00_scope.md R7, log 17). -/
def csMarker : Byte := 0x2A#8

/-- The newline that ends a telemetry sentence (30_encoding.md R69, R77). -/
def newline : Byte := 0x0A#8

/-- The parameters that the spec leaves open and makes arguments of the model (00_scope.md R7, 10_state.md R32).
The model carries them beside the block's state (DESIGN CHOICE, log 4): no step writes them, and a statement about
every state is a statement about every value of them. -/
structure Params where
  /-- `MODEM_MAX_LEN`: the most characters one SUBMIT may carry. -/
  modemMaxLen    : Nat
  /-- `NMEA_BUF_LEN`: bytes in the NMEA line buffer. -/
  nmeaBufLen     : Nat
  /-- `IDLE_LEVEL`: the line level while no transmission is active. -/
  idleLevel      : Level
  /-- `NMEA_HEX_LOWER_OK`: whether `a` to `f` are accepted as NMEA checksum digits. -/
  nmeaHexLowerOk : Bool
  /-- `SNAPSHOT_INIT`: the snapshot after reset. -/
  snapshotInit   : Snapshot
  deriving DecidableEq, Repr

/-- The ranges of 00_scope.md R7: `MODEM_MAX_LEN` is 1 to 4094, `NMEA_BUF_LEN` is at least 1. -/
abbrev Params.Legal (p : Params) : Prop := 1 ≤ p.modemMaxLen ∧ p.modemMaxLen ≤ 4094 ∧ 1 ≤ p.nmeaBufLen

/-- A snapshot whose every field is zero. DESIGN CHOICE (log 6, unsafe): the value of `SNAPSHOT_INIT` in the
parameters below. -/
def zeroSnapshot : Snapshot :=
  { lat := 0, lon := 0, alt := 0, satellites := 0, fixValid := false, time := 0, other := [] }

/-- The parameters that `State.reset` carries. `IDLE_LEVEL` = 1 and `NMEA_HEX_LOWER_OK` = false are the spec's own
defaults (00_scope.md R7). DESIGN CHOICE (log 5, unsafe): 128 characters and 82 bytes for the two sizes that no
source gives. No statement rests on these values. -/
def defaultParams : Params :=
  { modemMaxLen := 128, nmeaBufLen := 82, idleLevel := true, nmeaHexLowerOk := false, snapshotInit := zeroSnapshot }

/-- The GPS field parser before the one law that the source states of it: what the fields of a validated line make of the
snapshot. The source puts "GPS field-value arithmetic" out of scope and the spec asks for "any function at all" (42_nmea.md
R146), so it is a constant without a body (log 8). -/
opaque gpsFields : Snapshot → List Byte → Snapshot

/-- Whether a line is a position fix sentence whose fix-quality field is zero (42_nmea.md R146). "Which field is
the fix-quality indicator is not in the source", so it is a constant without a body (log 8). -/
opaque zeroFixQuality : List Byte → Bool

end Config

end Sys2Proof
end

