-- ==== Sys2Proof/Syntax.lean ====
section
/-! DEFINITION. The operations of the block, one constructor per row of the opcode table, and the event that presents one. -/

namespace Sys2Proof

/-- The eight operations of 30_encoding.md R62, one constructor per row of the opcode table. -/
inductive Instr where
  /-- NOP, format Z (43_system.md R160). -/
  | nop
  /-- SUBMIT, format L (40_modem.md R90): the length of the command word, and the caller's buffer `HOST`, the side
  operand presented with the word (20_memory.md R42). -/
  | submit (len : Nat) (host : List Byte)
  /-- TICK, format Z (40_modem.md R95). -/
  | tick
  /-- CRC_INIT, format Z (41_checksum.md R110). -/
  | crcInit
  /-- CRC_BYTE, format B (41_checksum.md R111). -/
  | crcByte (data : Byte)
  /-- CRC_READ, format Z (41_checksum.md R112). -/
  | crcRead
  /-- NMEA_RX, format B (42_nmea.md R130). -/
  | nmeaRx (data : Byte)
  /-- RESET, format Z (43_system.md R161). -/
  | reset
  deriving DecidableEq, Repr

/-- The kinds of reserved command word that 30_encoding.md R65 lists. -/
inductive Reserved where
  /-- `op` is one of 0x7 to 0xE. -/
  | opcode
  /-- A format Z operation whose `arg` is not 0. -/
  | formatZArgument
  /-- A format B operation whose bits 11:8 are not 0. -/
  | formatBArgument
  deriving DecidableEq, Repr

/-- What a presented word is: "exactly one of the eight operations or reserved" (30_encoding.md R64). -/
inductive Decoded where
  | operation (i : Instr)
  | reserved (why : Reserved)
  deriving DecidableEq, Repr

/-- One event as the environment presents it (00_scope.md R6, 30_encoding.md R60): the `rst` input, the command word,
and the side operand `HOST` of 20_memory.md R42, which every operation but SUBMIT leaves unread. -/
structure Event where
  rst  : Bool
  word : CommandWord
  host : List Byte
  deriving DecidableEq, Repr

end Sys2Proof
end

