-- ==== Sys2Proof/Machine/State.lean ====
section
/-! DEFINITION. The state of the block, the outputs of a step, the reasons a step can stop, and the state after reset. -/

namespace Sys2Proof.Machine

/-- The content of one buffer, `TX` or `RX` (20_memory.md R40): the indices that hold a value, each with its byte, in
rising order. An index that is not listed holds no value (10_state.md R10, R31; log 10). -/
abbrev Memory := List Host.Cell

/-- The two spaces that are state of the block (20_memory.md R40); the third, `HOST`, is an operand. -/
inductive Space where
  | tx
  | rx
  deriving DecidableEq, Repr

/-- The values `rx_state` rests in (10_state.md R20). -/
inductive RxState where
  | awaitStart
  | capturing
  | inChecksum
  deriving DecidableEq, Repr

/-- The `status` output (30_encoding.md R66). -/
inductive Status where
  | ok
  | busy
  | tooLong
  | illegal
  deriving DecidableEq, Repr

/-- The outputs of a step (10_state.md R26): the status, the CRC value, and the dispatch, absent or a captured line
with the verdict of validation. -/
structure Outputs where
  status   : Status
  dout     : BitVec 16
  dispatch : Option (List Byte × Bool)
  deriving DecidableEq, Repr

/-- The twelve elements of 10_state.md R10, with three fields of the model's own before them: the parameters (log 4),
the events presented and not yet handled (log 1), and the outputs of the last step (log 3). -/
structure State where
  /-- The model's own: the parameters of 00_scope.md R7, which no step writes. -/
  params      : Config.Params
  /-- The model's own: the events presented and not yet handled, the next one first. -/
  pending     : List Event
  /-- The model's own: the outputs of the step that led to this state (10_state.md R26). -/
  out         : Outputs
  /-- `line`, the level on the output (R12). -/
  line        : Level
  /-- `tx_buf`, the space `TX` (R13). -/
  txBuf       : Memory
  /-- `tx_len` (R14). -/
  txLen       : Nat
  /-- `tx_char_index` (R15). -/
  txCharIndex : Nat
  /-- `tx_bit_phase`: 0 START_BIT, 1 to 8 DATA_BIT, 9 and 10 STOP_BIT (R16). -/
  txBitPhase  : Nat
  /-- `tx_active`: true is ACTIVE, false is IDLE_LINE (R17). -/
  txActive    : Bool
  /-- `crc`: 16 bits, or no value (R10, R19; log 9). -/
  crc         : Option CrcWord
  /-- `rx_state` (R20). -/
  rxState     : RxState
  /-- `rx_cs_count` (R21). -/
  rxCsCount   : Nat
  /-- `rx_buf`, the space `RX` (R22). -/
  rxBuf       : Memory
  /-- `rx_index` (R23). -/
  rxIndex     : Nat
  /-- `gps_snapshot` (R24). -/
  gpsSnapshot : Snapshot
  deriving DecidableEq, Repr

/-- Why the machine stops with a fault. Neither fault can be met in a state that a run reaches (10_state.md R18, R25,
20_memory.md R43). -/
inductive Fault where
  /-- Raised by a read of `TX` (TICK) or `RX` (a dispatching NMEA_RX) at an index that holds no value; "a model must
  treat a read of it as a fault or a refusal" (10_state.md R31). Safe: the machine stops (log 10). -/
  | noValue (space : Space) (index : Nat)
  /-- Raised by an access of `TX` or `RX` at an index outside the buffer; no such index exists (20_memory.md R40, R43).
  Safe: the machine stops (log 11). -/
  | outOfRange (space : Space) (index : Nat)
  deriving DecidableEq, Repr

/-- Inputs to which the spec gives no meaning (`refuse`, 00_scope.md R8), and operations not modelled. -/
inductive Refusal where
  /-- An operation whose meaning this model does not give; raised by no arm. Safe: the machine stops. -/
  | notModelled (mnemonic : String)
  /-- Raised by SUBMIT of length 0 on a free slot (40_modem.md R92 (a)). Safe: the machine stops (log 12). -/
  | submitEmpty
  /-- Raised by SUBMIT whose `HOST` is shorter than its length (40_modem.md R92 (b)). Safe: the machine stops
  (log 12). -/
  | submitShortHost
  /-- Raised by CRC_BYTE and CRC_READ while `crc` has no value: "refused" (41_checksum.md R111 to R113, U5). Safe: it stops
  (log 9). -/
  | crcNoValue
  deriving DecidableEq, Repr

/-- What a step of this machine answers. -/
abbrev Answer := Host.Outcome State Fault Refusal

/-- The state after reset: the table of 10_state.md R31 with the default parameters and no event presented. -/
def State.reset : State :=
  { params      := Config.defaultParams
    pending     := []
    out         := { status := .ok, dout := 0#16, dispatch := none }
    line        := Config.defaultParams.idleLevel
    txBuf       := []
    txLen       := 0
    txCharIndex := 0
    txBitPhase  := 0
    txActive    := false
    crc         := none
    rxState     := .awaitStart
    rxCsCount   := 0
    rxBuf       := []
    rxIndex     := 0
    gpsSnapshot := Config.defaultParams.snapshotInit }

end Sys2Proof.Machine
end

