-- ==== Sys2Proof/Machine/Ops.lean ====
section
/-! DEFINITION. The operations that every meaning is written over: the buffers, the named updates of the state, and
putting the block at its reset values. The block raises no exception and returns from none (60_exceptions.md R170), so
no operation of that kind stands here. -/

namespace Sys2Proof.Machine

/-- The one canonical form of a buffer's content: indices strictly rising (log 10). No entry can equal what an
unlisted index reads as, since an unlisted index holds no value. -/
def Memory.wf (m : Memory) : Bool := decide (m.Pairwise fun c d => c.1 < d.1)

/-- Every listed index exists in a buffer of `size` bytes (20_memory.md R40). -/
def Memory.within (size : Nat) (m : Memory) : Bool := m.all fun c => decide (c.1 < size)

/-- The byte at an index, or none where the index holds no value (10_state.md R10, R31). -/
def memLookup : Memory → Nat → Option Byte
  | [], _ => none
  | (b, v) :: m, a => if a = b then some v else memLookup m a

/-- The cells of consecutive bytes, the first at index `a`. -/
def memCells (a : Nat) : List Byte → Memory
  | [] => []
  | v :: vs => (a, v) :: memCells (a + 1) vs

/-- `MemWrite` of consecutive bytes, the first at index `a`, every other index as it was (00_scope.md R8). -/
def memStore (a : Nat) (vs : List Byte) (m : Memory) : Memory :=
  m.filter (fun c => decide (c.1 < a)) ++ memCells a vs ++ m.filter (fun c => decide (a + vs.length ≤ c.1))

/-- How many bytes a space has: `MODEM_MAX_LEN` or `NMEA_BUF_LEN` (20_memory.md R40). -/
def spaceSize (s : State) : Space → Nat
  | .tx => s.params.modemMaxLen
  | .rx => s.params.nmeaBufLen

/-- The content of a space: `tx_buf` or `rx_buf` (10_state.md R13, R22). -/
def spaceContent (s : State) : Space → Memory
  | .tx => s.txBuf
  | .rx => s.rxBuf

/-- `MemRead(space, a, 1)`. An index outside the buffer does not exist (log 11) and an index without a value is never
read as a number (10_state.md R31, log 10). A read changes nothing (20_memory.md R49). -/
def readByte (sp : Space) (a : Nat) (s : State) : Except Fault Byte :=
  if a < spaceSize s sp then
    match memLookup (spaceContent s sp) a with
    | some v => .ok v
    | none => .error (.noValue sp a)
  else .error (.outOfRange sp a)

/-- `MemRead(space, a, n)`, the bytes in rising order of index. -/
def readBytes (sp : Space) (a : Nat) (s : State) : Nat → Except Fault (List Byte)
  | 0 => .ok []
  | n + 1 =>
    match readByte sp a s with
    | .error f => .error f
    | .ok v =>
      match readBytes sp (a + 1) s n with
      | .error f => .error f
      | .ok vs => .ok (v :: vs)

/-- The outputs of the step are given. -/
def setOut (o : Outputs) (s : State) : State := { s with out := o }

/-- `line` is driven. -/
def setLine (l : Level) (s : State) : State := { s with line := l }

/-- The transmit slot's content and length are written. -/
def setSlot (m : Memory) (len : Nat) (s : State) : State := { s with txBuf := m, txLen := len }

/-- The sequencer of unit A, the pair that stands for a program counter (10_state.md R27), is set, and with it the
flag `tx_active`. -/
def setSequencer (active : Bool) (char phase : Nat) (s : State) : State :=
  { s with txActive := active, txCharIndex := char, txBitPhase := phase }

/-- `crc` is written and holds a value. -/
def setCrc (c : CrcWord) (s : State) : State := { s with crc := some c }

/-- `rx_state` and `rx_cs_count` are written. -/
def setCapture (st : RxState) (count : Nat) (s : State) : State := { s with rxState := st, rxCsCount := count }

/-- The line buffer and the capture index are written. -/
def setLineBuffer (m : Memory) (index : Nat) (s : State) : State := { s with rxBuf := m, rxIndex := index }

/-- `gps_snapshot` is written. -/
def setSnapshot (g : Snapshot) (s : State) : State := { s with gpsSnapshot := g }

/-- The events still to be handled are given. -/
def setPending (es : List Event) (s : State) : State := { s with pending := es }

/-- Every element of the block at its reset value (43_system.md R161, 10_state.md R31); the parameters and the events
not yet handled are no state of the block and stay. "No value" means that the model forgets the content (log 24). -/
def resetBlock (s : State) : State :=
  { s with
    line        := s.params.idleLevel
    txBuf       := []
    txLen       := 0
    txCharIndex := 0
    txBitPhase  := 0
    txActive    := false
    crc         := none
    rxState     := .awaitStart
    rxCsCount   := 0
    rxBuf       := []
    rxIndex     := 0
    gpsSnapshot := s.params.snapshotInit }

end Sys2Proof.Machine
end

