-- ==== Sys2Proof/Machine/Flags.lean ====
section
/-! DEFINITION. The status codes and the outputs with which a step ends. The block has one flag held as state,
`tx_active` (10_state.md R28), written by `setSequencer` and `resetBlock`; no operation produces a condition code. -/

namespace Sys2Proof.Machine

/-- The 2-bit codes of the `status` output (30_encoding.md R66). -/
def Status.code : Status → BitVec 2
  | .ok => 0#2
  | .busy => 1#2
  | .tooLong => 2#2
  | .illegal => 3#2

/-- The outputs of a step that mentions only its status: "a step that does not mention an output gives `status` = OK,
`dout` = 0, `dispatch` absent" (00_scope.md R8). -/
def statusOutputs (st : Status) : Outputs := { status := st, dout := 0#16, dispatch := none }

/-- The step ends with a status and no other output. -/
def answer (st : Status) (s : State) : Answer := .next (setOut (statusOutputs st) s)

/-- The step ends with the CRC value on `dout` (41_checksum.md R112). -/
def answerDout (c : CrcWord) (s : State) : Answer := .next (setOut { status := .ok, dout := c, dispatch := none } s)

/-- The step ends with a dispatch (42_nmea.md R138). -/
def answerDispatch (line : List Byte) (verdict : Bool) (s : State) : Answer :=
  .next (setOut { status := .ok, dout := 0#16, dispatch := some (line, verdict) } s)

end Sys2Proof.Machine
end

