-- ==== Sys2Proof/Machine/Operands.lean ====
section
/-! DEFINITION. The operand forms: the caller's buffer of SUBMIT, and the hexadecimal digits of the two sentence
formats. The operands `len` and `data` are fields of the command word and stand in Sys2Proof/Decode.lean. -/

namespace Sys2Proof.Machine

/-- `MemRead(HOST, 0, n)`: the first `n` bytes of the caller's buffer, or none if it is shorter (20_memory.md R42). -/
def hostRead (host : List Byte) (n : Nat) : Option (List Byte) :=
  if host.length < n then none else some (host.take n)

/-- `digit(n)` for 0 to 15: the uppercase hexadecimal digit that is written for a value (30_encoding.md R74). -/
def hexDigit (n : Nat) : Byte := if n ≤ 9 then BitVec.ofNat 8 (0x30 + n) else BitVec.ofNat 8 (0x41 + n - 10)

/-- `hexval(b)`: the value of a byte read as a hexadecimal digit, or none where it is not a digit; `a` to `f` are digits
only if `NMEA_HEX_LOWER_OK` is true (30_encoding.md R74, 42_nmea.md R142). -/
def hexVal (lowerOk : Bool) (b : Byte) : Option Nat :=
  let n := b.toNat
  if 0x30 ≤ n ∧ n ≤ 0x39 then some (n - 0x30)
  else if 0x41 ≤ n ∧ n ≤ 0x46 then some (n - 0x41 + 10)
  else if lowerOk = true ∧ 0x61 ≤ n ∧ n ≤ 0x66 then some (n - 0x61 + 10)
  else none

/-- `hex4(v)`: four uppercase hexadecimal digits, most significant first, leading zeros kept (41_checksum.md R115). -/
def hex4 (v : CrcWord) : List Byte :=
  [ hexDigit (v.extractLsb' 12 4).toNat, hexDigit (v.extractLsb' 8 4).toNat,
    hexDigit (v.extractLsb' 4 4).toNat, hexDigit (v.extractLsb' 0 4).toNat ]

end Sys2Proof.Machine
end

