-- ==== Sys2Proof/Machine/Modem.lean ====
section
/-! DEFINITION. Unit A, the RTTY modem: SUBMIT and TICK. -/

namespace Sys2Proof.Machine

/-- `frame(c)`: the eleven successive values of `line` that send one character (30_encoding.md R67). -/
def charFrame (c : Byte) : List Level :=
  [ false, c.getLsbD 0, c.getLsbD 1, c.getLsbD 2, c.getLsbD 3, c.getLsbD 4, c.getLsbD 5, c.getLsbD 6, c.getLsbD 7,
    true, true ]

/-- The line values of a transmission, frame after frame with nothing between (30_encoding.md R68). -/
def transmission (bytes : List Byte) : List Level := bytes.flatMap charFrame

/-- The bit that TICK drives for the character `c` at bit phase `p`: START_BIT low, DATA_BIT p is bit p-1, STOP_BIT 1
and 2 high (40_modem.md R95). No reached state has a greater phase; the pseudocode then writes nothing (log 19). -/
def drivenLevel (c : Byte) (p : Nat) (held : Level) : Level :=
  if p = 0 then false
  else if p ≤ Config.charBits then c.getLsbD (p - 1)
  else if p < Config.bitsPerChar then true
  else held

/-- "Then advance" of 40_modem.md R95: the next bit, or after the second stop bit the next character, or after the last
character the idle state with `tx_active` cleared. -/
def advanceSequencer (s : State) : State :=
  if s.txBitPhase + 1 < Config.bitsPerChar then setSequencer s.txActive s.txCharIndex (s.txBitPhase + 1) s
  else if s.txCharIndex + 1 < s.txLen then setSequencer s.txActive (s.txCharIndex + 1) 0 s
  else setSequencer false 0 0 s

/-- The claim of the slot by an accepted SUBMIT: the copy, the length, and the first bit of the first character, in one
step (40_modem.md R90, R91, 20_memory.md R48). -/
def loadSlot (bytes : List Byte) (s : State) : State :=
  setSequencer true 0 0 (setSlot (memStore 0 bytes s.txBuf) bytes.length s)

/-- SUBMIT (40_modem.md R90). The tests stand in the order of R93: BUSY, TOO_LONG, then the two refusals of R92
(log 12). An accepted length is at most `MODEM_MAX_LEN`, so the copy stays inside `TX`. -/
def execSubmit (len : Nat) (host : List Byte) (s : State) : Answer :=
  if s.txActive then answer .busy s
  else if s.params.modemMaxLen < len then answer .tooLong s
  else if len = 0 then .refused .submitEmpty
  else
    match hostRead host len with
    | none => .refused .submitShortHost
    | some bytes => answer .ok (loadSlot bytes s)

/-- TICK (40_modem.md R95): drive the current bit, then advance; the idle level when idle. -/
def execTick (s : State) : Answer :=
  if s.txActive then
    match readByte .tx s.txCharIndex s with
    | .error f => .fault f
    | .ok c => answer .ok (advanceSequencer (setLine (drivenLevel c s.txBitPhase s.line) s))
  else answer .ok (setLine s.params.idleLevel s)

end Sys2Proof.Machine
end

