-- ==== Sys2Proof/Machine/Checksum.lean ====
section
/-! DEFINITION. Unit C, the checksum generator: CRC_INIT, CRC_BYTE, CRC_READ, the functions `crc16` and `xor8`, and the
sealing of a telemetry sentence. -/

namespace Sys2Proof.Machine

/-- One iteration of the bit-serial CRC (41_checksum.md R111): the bit shifted out, exclusive-or the data bit, decides
whether the polynomial is applied. -/
def crcBit (c : CrcWord) (d : Bool) : CrcWord :=
  if (c.getLsbD 15 ^^ d) then (c <<< 1) ^^^ Config.crcPoly else c <<< 1

/-- The bits of a byte, bit 7 first (20_memory.md R45). -/
def msbFirst (b : Byte) : List Bool :=
  [ b.getLsbD 7, b.getLsbD 6, b.getLsbD 5, b.getLsbD 4, b.getLsbD 3, b.getLsbD 2, b.getLsbD 1, b.getLsbD 0 ]

/-- `step(c, b)`: what CRC_BYTE makes of the register, most significant bit first (41_checksum.md R111, R114). -/
def crcStep (c : CrcWord) (b : Byte) : CrcWord := (msbFirst b).foldl crcBit c

/-- `crc16(bytes)` (41_checksum.md R114). -/
def crc16 (bytes : List Byte) : CrcWord := bytes.foldl crcStep Config.crcInitValue

/-- One of the eight iterations of the byte-wise form (41_checksum.md R116). -/
def crcShift (c : CrcWord) : CrcWord := if c.getLsbD 15 then (c <<< 1) ^^^ Config.crcPoly else c <<< 1

/-- The byte-wise form of the CRC step (41_checksum.md R116): the byte enters the top half, then eight shifts. -/
def crcStepByteWise (c : CrcWord) (b : Byte) : CrcWord :=
  crcShift (crcShift (crcShift (crcShift (crcShift (crcShift (crcShift (crcShift (c ^^^ (b.zeroExtend 16 <<< 8)))))))))

/-- `xor8(bytes)` (41_checksum.md R117). -/
def xor8 (bytes : List Byte) : Byte := bytes.foldl (fun x b => x ^^^ b) 0#8

/-- CRC_INIT (41_checksum.md R110). -/
def execCrcInit (s : State) : Answer := answer .ok (setCrc Config.crcInitValue s)

/-- CRC_BYTE (41_checksum.md R111). The refusal is the first line of the rule's own pseudocode, "if crc has no value: refuse"
(R113, U5). `refuse` means that "the spec gives the input no meaning. A model must not give it one either" (00_scope.md R8). -/
def execCrcByte (data : Byte) (s : State) : Answer :=
  match s.crc with
  | none => .refused .crcNoValue
  | some c => answer .ok (setCrc (crcStep c data) s)

/-- CRC_READ (41_checksum.md R112). The refusal is the first line of the rule's own pseudocode, "if crc has no value: refuse"
(R113, U5). `refuse` means that "the spec gives the input no meaning. A model must not give it one either" (00_scope.md R8). -/
def execCrcRead (s : State) : Answer :=
  match s.crc with
  | none => .refused .crcNoValue
  | some c => answerDout c s

/-- The two leading preamble markers of a telemetry sentence (30_encoding.md R70). -/
def preamble : List Byte := [Config.startMarker, Config.startMarker]

/-- The six bytes of the checksum suffix: the checksum marker, four digits, a newline (30_encoding.md R69). -/
def checksumSuffix (c : CrcWord) : List Byte := Config.csMarker :: hex4 c ++ [Config.newline]

/-- The rendered sentence without its suffix, "`$$` followed by the body" (41_checksum.md R118): its length is at least 2. -/
def sentencePrefix (body : List Byte) : List Byte := preamble ++ body

/-- Sealing, the host's use of unit C (41_checksum.md R118, log 23): the rendered sentence of a body, with its suffix, and
`cap` the capacity of the caller's buffer. The CRC covers the body and nothing else (30_encoding.md R70). None is the failure
that "signals failure without writing any checksum". -/
def sealSentence (body : List Byte) (cap : Nat) : Option (List Byte) :=
  if cap < (sentencePrefix body).length + 6 then none
  else some (sentencePrefix body ++ checksumSuffix (crc16 body))

/-- The digits of a telemetry sentence are uppercase hexadecimal digits (30_encoding.md R69). -/
def isUpperDigit (b : Byte) : Bool := (hexVal false b).isSome

/-- The digits s[L-5 .. L-2] of a telemetry sentence of L bytes (30_encoding.md R70). -/
def sentenceDigits (sentence : List Byte) : List Byte := (sentence.drop (sentence.length - 5)).take 4

/-- The covered bytes of a whole telemetry sentence of L bytes, s[2 .. L-7] (30_encoding.md R70). -/
def coveredBytes (sentence : List Byte) : List Byte := (sentence.take (sentence.length - 6)).drop 2

/-- What a whole telemetry sentence s of L bytes is (30_encoding.md R70): L at least 8, s[0] and s[1] the preamble markers,
s[L-6] the checksum marker, s[L-5 .. L-2] four digits, s[L-1] a newline. -/
def wholeSentence (sentence : List Byte) : Bool :=
  decide (8 ≤ sentence.length) && (sentence.take 2 == preamble) &&
    (sentence[sentence.length - 6]? == some Config.csMarker) && (sentenceDigits sentence).all isUpperDigit &&
    (sentence[sentence.length - 1]? == some Config.newline)

/-- The check that a receiver of a telemetry sentence makes: its digits are those of the CRC recomputed over the covered bytes
(30_encoding.md R71). R71 speaks of valid sentences; that the check rejects what is no whole sentence of R70 is the model's
choice (DEDUCED, log 23). -/
def receiverCheck (sentence : List Byte) : Bool :=
  wholeSentence sentence && (hex4 (crc16 (coveredBytes sentence)) == sentenceDigits sentence)

end Sys2Proof.Machine
end

