-- ==== Sys2Proof/Machine/Nmea.lean ====
section
/-! DEFINITION. Unit B, the NMEA ingest: NMEA_RX, capture, dispatch, validation, snapshot. -/

namespace Sys2Proof.Machine

/-- Clause (5) of `validate`, with its digits: the byte values `h1` and `h2` are hexadecimal digits whose number is the
exclusive-or of the body (42_nmea.md R140 (4), (5)). -/
def checksumMatches (lowerOk : Bool) (body : List Byte) (h1 h2 : Byte) : Bool :=
  match hexVal lowerOk h1, hexVal lowerOk h2 with
  | some a, some b => (xor8 body).toNat == 16 * a + b
  | _, _ => false

/-- `validate(l)` (42_nmea.md R140): clauses (1) to (3) on the shape of the line, then (4) and (5). The body is
l[1 .. n-4]. -/
def validate (lowerOk : Bool) (l : List Byte) : Bool :=
  decide (4 ≤ l.length) && (l.getD 0 0#8 == Config.startMarker) && (l.getD (l.length - 3) 0#8 == Config.csMarker) &&
    checksumMatches lowerOk ((l.drop 1).take (l.length - 4)) (l.getD (l.length - 2) 0#8) (l.getD (l.length - 1) 0#8)

/-- Where `append` stores: at index 0 if the buffer is full, else at the capture index (42_nmea.md R135). -/
def appendIndex (s : State) : Nat := if s.rxIndex = s.params.nmeaBufLen then 0 else s.rxIndex

/-- `append(b)` (42_nmea.md R135): the wrap test stands before the store. An index outside `RX` does not exist
(log 11); none is met in a reached state (20_memory.md R43). -/
def appendByte (b : Byte) (s : State) : Except Fault State :=
  if appendIndex s < spaceSize s .rx then
    .ok (setLineBuffer (memStore (appendIndex s) [b] s.rxBuf) (appendIndex s + 1) s)
  else .error (.outOfRange .rx (appendIndex s))

/-- `gps_update` (42_nmea.md R146): any function that obeys the one law the source states, "A zero fix-quality indicator on
an otherwise-valid frame forces position/altitude fields to the sentinel zero triple" (log 8). -/
def gpsUpdate (snap : Snapshot) (l : List Byte) : Snapshot :=
  if Config.zeroFixQuality l then (Config.gpsFields snap l).forceZero else Config.gpsFields snap l

/-- The dispatch (42_nmea.md R138): the captured line with its verdict is output, the snapshot is updated if the verdict
is true, and capture is disabled until the next start marker (R139). -/
def dispatchLine (s : State) : Answer :=
  match readBytes .rx 0 s s.rxIndex with
  | .error f => .fault f
  | .ok l =>
    if validate s.params.nmeaHexLowerOk l then
      answerDispatch l true (setCapture .awaitStart 0 (setSnapshot (gpsUpdate s.gpsSnapshot l) s))
    else answerDispatch l false (setCapture .awaitStart 0 s)

/-- A start marker, in every state (42_nmea.md R132): capture begins again, the marker is stored at index 0. -/
def takeStart (b : Byte) (s : State) : Answer :=
  match appendByte b (setCapture .capturing 0 (setLineBuffer s.rxBuf 0 s)) with
  | .error f => .fault f
  | .ok s' => answer .ok s'

/-- A byte in CAPTURING: stored; the checksum marker begins the count (42_nmea.md R130). -/
def takeBody (b : Byte) (s : State) : Answer :=
  match appendByte b s with
  | .error f => .fault f
  | .ok s' => if b = Config.csMarker then answer .ok (setCapture .inChecksum 0 s') else answer .ok s'

/-- A byte in IN_CHECKSUM: stored and counted whatever it is; the second one dispatches (42_nmea.md R130, R137). -/
def takeWindow (b : Byte) (s : State) : Answer :=
  match appendByte b s with
  | .error f => .fault f
  | .ok s' => if s'.rxCsCount = 0 then answer .ok (setCapture .inChecksum 1 s') else dispatchLine s'

/-- NMEA_RX (42_nmea.md R130). In AWAIT_START every byte but the start marker is dropped (R133). -/
def execNmeaRx (data : Byte) (s : State) : Answer :=
  if data = Config.startMarker then takeStart data s
  else
    match s.rxState with
    | .awaitStart => answer .ok s
    | .capturing => takeBody data s
    | .inChecksum => takeWindow data s

end Sys2Proof.Machine
end

