-- ==== Sys2Proof/Machine/System.lean ====
section
/-! DEFINITION. The system operations NOP and RESET, and the answer to a reserved command word. -/

namespace Sys2Proof.Machine

/-- NOP (43_system.md R160): nothing is read or written. -/
def execNop (s : State) : Answer := answer .ok s

/-- RESET (43_system.md R161): every element at its reset value. -/
def execReset (s : State) : Answer := answer .ok (resetBlock s)

/-- A reserved command word does nothing but report itself (43_system.md R162, log 20). -/
def answerReserved (s : State) : Answer := answer .illegal s

end Sys2Proof.Machine
end

