-- ==== Sys2Proof/Machine/Dispatch.lean ====
section
/-! DEFINITION. The one place where an operation is given its meaning: one arm per row of the opcode table. -/

namespace Sys2Proof.Machine

def exec (i : Instr) (s : State) : Host.Outcome State Fault Refusal :=
  match i with
  | .nop => Sys2Proof.Machine.execNop s
  | .submit len host => Sys2Proof.Machine.execSubmit len host s
  | .tick => Sys2Proof.Machine.execTick s
  | .crcInit => Sys2Proof.Machine.execCrcInit s
  | .crcByte data => Sys2Proof.Machine.execCrcByte data s
  | .crcRead => Sys2Proof.Machine.execCrcRead s
  | .nmeaRx data => Sys2Proof.Machine.execNmeaRx data s
  | .reset => Sys2Proof.Machine.execReset s

end Sys2Proof.Machine
end

