-- ==== Sys2Proof/WellFormed.lean ====
section
/-! DEFINITION. Which operations a command word can present. -/

namespace Sys2Proof

/-- An operation that a command word can present. The one operand that its type does not bound is the length of
SUBMIT, "an unsigned number 0 to 4095" (30_encoding.md R63). A `HOST` operand shorter than the length is no ill-formed
operation: it is an input that SUBMIT refuses, after its other tests (40_modem.md R92). -/
def Instr.wellFormed : Instr → Bool
  | .nop => true
  | .submit len _ => decide (len ≤ 4095)
  | .tick => true
  | .crcInit => true
  | .crcByte _ => true
  | .crcRead => true
  | .nmeaRx _ => true
  | .reset => true

end Sys2Proof
end

