-- ==== Sys2Proof/Decode.lean ====
section
/-! DEFINITION. The command word: its fields, the decoder, the opcode table as the spec prints it, and the encoder. -/

namespace Sys2Proof

/-- The field `op`, bits 15:12 (30_encoding.md R60). -/
def opField (w : CommandWord) : Nat := (w.extractLsb' 12 4).toNat

/-- The field `arg`, bits 11:0 (30_encoding.md R60), which is the operand `len` of format L (R61, R63). -/
def argField (w : CommandWord) : Nat := (w.extractLsb' 0 12).toNat

/-- Bits 11:8, which format B reserves (30_encoding.md R61). -/
def highArgField (w : CommandWord) : Nat := (w.extractLsb' 8 4).toNat

/-- The operand `data` of format B, bits 7:0 (30_encoding.md R61, R63). -/
def dataField (w : CommandWord) : Byte := w.extractLsb' 0 8

/-- Format Z has no operand: `arg` must be 0 (30_encoding.md R61). -/
def decodeZ (w : CommandWord) (i : Instr) : Decoded :=
  if argField w = 0 then .operation i else .reserved .formatZArgument

/-- Format B has a byte operand and bits 11:8 must be 0 (30_encoding.md R61). -/
def decodeB (w : CommandWord) (i : Byte → Instr) : Decoded :=
  if highArgField w = 0 then .operation (i (dataField w)) else .reserved .formatBArgument

/-- Decoding, total over the 65536 words (30_encoding.md R64). `host` is the side operand presented with the word,
which only SUBMIT takes (R60). -/
def decode (w : CommandWord) (host : List Byte) : Decoded :=
  match opField w with
  | 0x0 => decodeZ w .nop
  | 0x1 => .operation (.submit (argField w) host)
  | 0x2 => decodeZ w .tick
  | 0x3 => decodeZ w .crcInit
  | 0x4 => decodeB w .crcByte
  | 0x5 => decodeZ w .crcRead
  | 0x6 => decodeB w .nmeaRx
  | 0xF => decodeZ w .reset
  | _ => .reserved .opcode

/-- A row of the table of 30_encoding.md R62. -/
structure OpcodeRow where
  mnemonic : String
  word     : CommandWord
  mask     : CommandWord
  deriving DecidableEq, Repr

/-- The table of 30_encoding.md R62: mnemonic, match and mask. -/
def opcodeTable : List OpcodeRow :=
  [ ⟨"NOP", 0x0000#16, 0xFFFF#16⟩,
    ⟨"SUBMIT", 0x1000#16, 0xF000#16⟩,
    ⟨"TICK", 0x2000#16, 0xFFFF#16⟩,
    ⟨"CRC_INIT", 0x3000#16, 0xFFFF#16⟩,
    ⟨"CRC_BYTE", 0x4000#16, 0xFF00#16⟩,
    ⟨"CRC_READ", 0x5000#16, 0xFFFF#16⟩,
    ⟨"NMEA_RX", 0x6000#16, 0xFF00#16⟩,
    ⟨"RESET", 0xF000#16, 0xFFFF#16⟩ ]

/-- A word is of a row if its bits under the row's mask are the row's match. -/
def OpcodeRow.covers (r : OpcodeRow) (w : CommandWord) : Bool := w &&& r.mask == r.word

/-- The row of the table that an operation stands for. -/
def Instr.mnemonic : Instr → String
  | .nop => "NOP"
  | .submit _ _ => "SUBMIT"
  | .tick => "TICK"
  | .crcInit => "CRC_INIT"
  | .crcByte _ => "CRC_BYTE"
  | .crcRead => "CRC_READ"
  | .nmeaRx _ => "NMEA_RX"
  | .reset => "RESET"

/-- The command word of an operation, from the patterns of 30_encoding.md R62: format Z is `op` alone, format B is
`op`, four zero bits and the data, format L is `op` and the length. -/
def encode : Instr → CommandWord
  | .nop => 0x0#4 ++ 0x000#12
  | .submit len _ => 0x1#4 ++ BitVec.ofNat 12 len
  | .tick => 0x2#4 ++ 0x000#12
  | .crcInit => 0x3#4 ++ 0x000#12
  | .crcByte data => 0x4#4 ++ 0x0#4 ++ data
  | .crcRead => 0x5#4 ++ 0x000#12
  | .nmeaRx data => 0x6#4 ++ 0x0#4 ++ data
  | .reset => 0xF#4 ++ 0x000#12

/-- The side operand that is presented with the word of an operation: `HOST` for SUBMIT, nothing for the others
(30_encoding.md R75). -/
def sideOperand : Instr → List Byte
  | .submit _ host => host
  | _ => []

/-- The event by which the environment presents an operation (30_encoding.md R75). -/
def Instr.event (i : Instr) : Event := { rst := false, word := encode i, host := sideOperand i }

/-- The `HOST` operand that stands for "operand words of zeros": as many zero bytes as a SUBMIT word has length, and
none for every other word (DESIGN CHOICE, log 13). -/
def zeroHost (w : CommandWord) : List Byte :=
  if opField w = 0x1 then List.replicate (argField w) 0#8 else []

/-- The operation that the decoder reads from an opcode-table word. A command word has 16 bits and no other length
(30_encoding.md R60); the table gives the operand `HOST` no bits, so it is zero bytes (log 13). -/
def decodeTableWord (nbits w : Nat) : Option Instr :=
  if nbits = 16 ∧ w < 65536 then
    match decode (BitVec.ofNat 16 w) (zeroHost (BitVec.ofNat 16 w)) with
    | .operation i => some i
    | .reserved _ => none
  else none

end Sys2Proof
end

