-- ==== Sys2Proof/Machine/Events.lean ====
section
/-! DEFINITION. How events reach the block: which one is next, the order of events that are ready together, which agent
may present which operation, and the pseudo-operations. -/

namespace Sys2Proof.Machine

/-- The event that the next step handles: the first one presented. Where no agent has an event the step is a NOP, which
"stands for a step in which no agent has an event" (43_system.md R160, log 2). -/
def nextEvent (s : State) : Event :=
  match s.pending with
  | [] => Instr.nop.event
  | e :: _ => e

/-- The event has been taken. -/
def dropEvent (s : State) : State := setPending s.pending.tail s

/-- The environment presents further events, after those already presented. -/
def present (es : List Event) (s : State) : State := setPending (s.pending ++ es) s

/-- The event by which an opcode-table word is presented next, with a `HOST` operand of zero bytes (log 13). -/
def tableEvent (w : Nat) : Event :=
  { rst := false, word := BitVec.ofNat 16 w, host := zeroHost (BitVec.ofNat 16 w) }

/-- The event of the `rst` input, which forces the reset step "whatever the word is" (30_encoding.md R60). -/
def rstEvent : Event := { rst := true, word := 0#16, host := [] }

/-- What the four agents of 00_scope.md R6 have ready at one moment. -/
structure Ready where
  /-- The reset source raises `rst`. -/
  rst        : Bool
  /-- The periodic timer's tick interrupt is due. -/
  tick       : Bool
  /-- The bytes that the UART interrupt delivers, in arrival order (30_encoding.md R76). -/
  received   : List Byte
  /-- The operations that the foreground presents, in its order. -/
  foreground : List Instr
  deriving DecidableEq, Repr

/-- The order of events that are ready together: RESET, then TICK, then NMEA_RX, then the foreground's operation
(60_exceptions.md R179). The order is made before the events reach the block; `pending` may hold any other order,
which admits every behaviour of the original (log 15). -/
def arbitrate (r : Ready) : List Event :=
  (if r.rst then [rstEvent] else []) ++ (if r.tick then [Instr.tick.event] else []) ++
    r.received.map (fun b => (Instr.nmeaRx b).event) ++ r.foreground.map Instr.event

/-- The contexts of the host and the reset source (60_exceptions.md R181). -/
inductive Agent where
  | tickInterrupt
  | uartInterrupt
  | foreground
  | resetSource
  deriving DecidableEq, Repr

/-- Which agent may present which operation (the table of 60_exceptions.md R181): "a duty of the environment, not
checked by the block" (log 21). -/
def mayPresent : Agent → Instr → Bool
  | _, .nop => true
  | .tickInterrupt, .tick => true
  | .uartInterrupt, .nmeaRx _ => true
  | .foreground, .submit _ _ => true
  | .foreground, .crcInit => true
  | .foreground, .crcByte _ => true
  | .foreground, .crcRead => true
  | .resetSource, .reset => true
  | _, _ => false

/-- `TICKS k` (30_encoding.md R76). -/
def ticks (k : Nat) : List Instr := List.replicate k .tick

/-- `NMEA_RX_BURST` (30_encoding.md R76, 42_nmea.md R147). -/
def nmeaBurst (bytes : List Byte) : List Instr := bytes.map .nmeaRx

/-- `CRC_STRING` (30_encoding.md R76). -/
def crcString (bytes : List Byte) : List Instr := .crcInit :: bytes.map .crcByte

/-- `CRC_OF` (30_encoding.md R76). -/
def crcOf (bytes : List Byte) : List Instr := crcString bytes ++ [.crcRead]

/-- `SUBMIT "text"` (30_encoding.md R76): the length is the number of bytes of the text. -/
def submitText (bytes : List Byte) : Instr := .submit bytes.length bytes

end Sys2Proof.Machine
end

