-- ==== Sys2Proof/Machine/Step.lean ====
section
/-! DEFINITION. One step: the handling of one event. -/

namespace Sys2Proof.Machine

/-- One step handles one event (00_scope.md R6, R8): the `rst` input forces the reset step and has priority over the
word (43_system.md R161); an operation has its meaning; a reserved word is answered ILLEGAL (R162). -/
def step (s : State) : Host.Outcome State Fault Refusal :=
  if (nextEvent s).rst then execReset (dropEvent s)
  else
    match decode (nextEvent s).word (nextEvent s).host with
    | .operation i => exec i (dropEvent s)
    | .reserved _ => answerReserved (dropEvent s)

/-- The state in which the very next step runs an opcode-table word: its event is presented before all others, the
bits above `nbits` zero (log 1, 13). -/
def State.withFetchWord (s : State) (nbits w : Nat) : State := setPending (tableEvent (w % 2 ^ nbits) :: s.pending) s

/-- The operations of a list, one after the other, stopping at the first fault or refusal: a run as 00_scope.md R8
means it, from any state. -/
def execAll : List Instr → State → Host.Outcome State Fault Refusal
  | [], s => .next s
  | i :: is, s =>
    match exec i s with
    | .next s' => execAll is s'
    | .fault f => .fault f
    | .refused r => .refused r

end Sys2Proof.Machine
end

