-- ==== Sys2Proof/Safety.lean ====
section
/-! DEFINITION. The terms that claims use: the invariants of every reached state, the three units and their groups of
state, and what a safe run is. -/

namespace Sys2Proof.Machine

/-- The parameters are in the ranges of 00_scope.md R7. -/
abbrev ParamsOk (s : State) : Prop := s.params.Legal

/-- The two buffers are in canonical form and hold no index outside their space (20_memory.md R40, log 10). -/
abbrev BuffersOk (s : State) : Prop :=
  s.txBuf.wf = true ∧ s.txBuf.within s.params.modemMaxLen = true ∧
    s.rxBuf.wf = true ∧ s.rxBuf.within s.params.nmeaBufLen = true

/-- The invariants of group A (10_state.md R14 and R18 (b), (c)), and the level of the idle line (40_modem.md R97, which
fails where the parameter `IDLE_LEVEL` is set to 0). -/
abbrev ModemOk (s : State) : Prop :=
  s.txLen ≤ s.params.modemMaxLen ∧
  (s.txActive = true → 1 ≤ s.txLen ∧ s.txCharIndex < s.txLen ∧ s.txBitPhase ≤ 10 ∧
    ∀ i, i < s.txLen → (memLookup s.txBuf i).isSome = true) ∧
  (s.txActive = false → s.txCharIndex = 0 ∧ s.txBitPhase = 0) ∧
  (s.params.idleLevel = true → s.txActive = false → s.line = s.params.idleLevel)

/-- The invariants of group B (10_state.md R21 and R25 (a) to (d)). -/
abbrev IngestOk (s : State) : Prop :=
  s.rxIndex ≤ s.params.nmeaBufLen ∧
  (∀ i, i < s.rxIndex → (memLookup s.rxBuf i).isSome = true) ∧
  (s.rxState ≠ .awaitStart → 1 ≤ s.rxIndex) ∧
  (s.rxState ≠ .inChecksum → s.rxCsCount = 0) ∧
  s.rxCsCount ≤ 1

/-- What holds in every state that a run reaches (10_state.md R18, R25). -/
abbrev Invariants (s : State) : Prop := ParamsOk s ∧ BuffersOk s ∧ ModemOk s ∧ IngestOk s

/-- Where the markers stand in the captured part of the line buffer while capture is enabled: a start marker at index
0 at most, no checksum marker before it has been taken, and the checksum marker just before the window bytes taken
so far (what 10_state.md R25 (e) and 42_nmea.md R140 say of the captured line, kept also after a wrap). -/
abbrev MarkersOk (s : State) : Prop :=
  (s.rxState ≠ .awaitStart → ∀ i, i < s.rxIndex → 1 ≤ i → memLookup s.rxBuf i ≠ some Config.startMarker) ∧
  (s.rxState = .capturing → ∀ i, i < s.rxIndex → memLookup s.rxBuf i ≠ some Config.csMarker) ∧
  (s.rxState = .inChecksum → s.rxCsCount + 1 ≤ s.rxIndex →
    memLookup s.rxBuf (s.rxIndex - 1 - s.rxCsCount) = some Config.csMarker)

/-- The units of the block, and the system operations that belong to none (10_state.md R10). -/
inductive BlockUnit where
  | modem
  | checksum
  | ingest
  | system
  deriving DecidableEq, Repr

/-- The unit whose group of state an operation touches (10_state.md R10). -/
def unitOf : Instr → BlockUnit
  | .nop => .system
  | .submit _ _ => .modem
  | .tick => .modem
  | .crcInit => .checksum
  | .crcByte _ => .checksum
  | .crcRead => .checksum
  | .nmeaRx _ => .ingest
  | .reset => .system

/-- The two states agree on group A. -/
abbrev SameModem (s t : State) : Prop :=
  t.line = s.line ∧ t.txBuf = s.txBuf ∧ t.txLen = s.txLen ∧ t.txCharIndex = s.txCharIndex ∧
    t.txBitPhase = s.txBitPhase ∧ t.txActive = s.txActive

/-- The two states agree on group C. -/
abbrev SameChecksum (s t : State) : Prop := t.crc = s.crc

/-- The two states agree on group B. -/
abbrev SameIngest (s t : State) : Prop :=
  t.rxState = s.rxState ∧ t.rxCsCount = s.rxCsCount ∧ t.rxBuf = s.rxBuf ∧ t.rxIndex = s.rxIndex ∧
    t.gpsSnapshot = s.gpsSnapshot

/-- The inputs to which the spec gives no meaning (93_implementation_defined.md U3 to U5): SUBMIT of length 0, or with a
`HOST` shorter than its length, on a free slot and after the TOO_LONG test; CRC_BYTE and CRC_READ without a value in
`crc`. -/
abbrev RefusedInput (i : Instr) (s : State) : Prop :=
  match i with
  | .submit len host => s.txActive = false ∧ len ≤ s.params.modemMaxLen ∧ (len = 0 ∨ host.length < len)
  | .crcByte _ => s.crc = none
  | .crcRead => s.crc = none
  | _ => False

/-- How many ticks a run holds. -/
def tickCount (is : List Instr) : Nat := is.countP fun i => decide (i = .tick)

/-- The bytes that a run feeds to the checksum generator, in order. -/
def crcBytes : List Instr → List Byte
  | [] => []
  | .crcByte b :: is => b :: crcBytes is
  | _ :: is => crcBytes is

/-- A safe run ends in a state, or at an input that the spec refuses, and never at a fault. -/
abbrev SafeAnswer (a : Answer) : Prop :=
  match a with
  | .next _ => True
  | .fault _ => False
  | .refused _ => True

/-- A run whose operations are each presented by an agent that may present it (60_exceptions.md R181, log 21). -/
abbrev Lawful (run : List (Agent × Instr)) : Prop := ∀ p ∈ run, mayPresent p.1 p.2 = true

end Sys2Proof.Machine
end

