-- ==== Sys2Proof/Certificates/Slice0/Obligations.lean ====
section
/-! DEFINITION. The statements for the provers. Each docstring names the rule of the spec that it formalises; where a
statement rests on an inference or on a decision that the spec marks as its own, the docstring says so. -/

open Sys2Proof Sys2Proof.Machine

/-! ### The command word -/

/-- 30_encoding.md R62 and 95_test_vectors.md V-D27, V-D28: words written out from the patterns of the spec decode to the
operation they stand for, and reserved words to none. -/
def Obligations.SpecWordsDecode : Prop :=
  decode 0b0000000000000000#16 [] = .operation .nop ∧
  decode 0b0001000000001011#16 [0x41#8] = .operation (.submit 11 [0x41#8]) ∧
  decode 0b0001111111111111#16 [] = .operation (.submit 4095 []) ∧
  decode 0b0010000000000000#16 [] = .operation .tick ∧
  decode 0b0011000000000000#16 [] = .operation .crcInit ∧
  decode 0b0100000000110001#16 [] = .operation (.crcByte 0x31#8) ∧
  decode 0b0101000000000000#16 [] = .operation .crcRead ∧
  decode 0b0110000000100100#16 [] = .operation (.nmeaRx 0x24#8) ∧
  decode 0b1111000000000000#16 [] = .operation .reset ∧
  decode 0x2001#16 [] = .reserved .formatZArgument ∧
  decode 0x4131#16 [] = .reserved .formatBArgument ∧
  decode 0xE123#16 [] = .reserved .opcode

/-- 30_encoding.md R61 to R64: the word of every well-formed operation, presented with its side operand, decodes to that
operation, at every value of every operand. -/
def Obligations.DecodeOfEncodeIsTheOperation : Prop :=
  ∀ i : Instr, i.wellFormed = true → decode (encode i) (sideOperand i) = .operation i

/-- 30_encoding.md R64, "each of the 65536 words is exactly one of the eight operations or reserved": a word that decodes
to an operation is the word of that operation and of no other, the operation is well formed, and the operand HOST is the
one presented. -/
def Obligations.EncodeOfDecodeIsTheWord : Prop :=
  ∀ (w : CommandWord) (host : List Byte) (i : Instr), decode w host = .operation i →
    encode i = w ∧ i.wellFormed = true ∧ ∀ len h, i = .submit len h → h = host

/-- 30_encoding.md R64, decoding in prose: which words are which operation, by the fields `op` and `arg`; every other word
is reserved; and the count, 4613 words are operations and 60923 are reserved. -/
def Obligations.DecodeByFields : Prop :=
  (∀ (w : CommandWord) (host : List Byte),
    let op := w.toNat / 4096
    let arg := w.toNat % 4096
    let data : Byte := BitVec.ofNat 8 w.toNat
    (op = 0 ∧ arg = 0 → decode w host = .operation .nop) ∧
    (op = 1 → decode w host = .operation (.submit arg host)) ∧
    (op = 2 ∧ arg = 0 → decode w host = .operation .tick) ∧
    (op = 3 ∧ arg = 0 → decode w host = .operation .crcInit) ∧
    (op = 4 ∧ arg / 256 = 0 → decode w host = .operation (.crcByte data)) ∧
    (op = 5 ∧ arg = 0 → decode w host = .operation .crcRead) ∧
    (op = 6 ∧ arg / 256 = 0 → decode w host = .operation (.nmeaRx data)) ∧
    (op = 15 ∧ arg = 0 → decode w host = .operation .reset) ∧
    (¬ (op = 1 ∨ ((op = 0 ∨ op = 2 ∨ op = 3 ∨ op = 5 ∨ op = 15) ∧ arg = 0) ∨ ((op = 4 ∨ op = 6) ∧ arg / 256 = 0)) →
      ∃ why, decode w host = .reserved why)) ∧
  ∃ operations reserved : List CommandWord,
    operations.Nodup ∧ operations.length = 4613 ∧ (∀ w, w ∈ operations ↔ ∃ i, decode w [] = .operation i) ∧
    reserved.Nodup ∧ reserved.length = 60923 ∧ (∀ w, w ∈ reserved ↔ ∃ why, decode w [] = .reserved why)

/-- 30_encoding.md R62, R63: a word of a row of the printed table (match and mask) decodes to the row's operation, and a
word that decodes to an operation is of exactly the rows that bear its mnemonic. -/
def Obligations.DecoderFollowsThePrintedTable : Prop :=
  ∀ (w : CommandWord) (host : List Byte),
    (∀ r ∈ opcodeTable, r.covers w = true → ∃ i, decode w host = .operation i ∧ i.mnemonic = r.mnemonic) ∧
    (∀ i, decode w host = .operation i → ∀ r ∈ opcodeTable, (r.covers w = true ↔ r.mnemonic = i.mnemonic)) ∧
    (∀ i, decode w host = .operation i → ∃ r ∈ opcodeTable, r.covers w = true)

/-- 30_encoding.md R65 with 43_system.md R162: the reserved words are those with `op` in 0x7 to 0xE, those of a format Z
operation with a non-zero argument and those of a format B operation with non-zero bits 11:8; the step that takes one
answers ILLEGAL and changes no state; every other word is an operation. -/
def Obligations.ReservedWordsAnswerIllegal : Prop :=
  ∀ (s : State) (e : Event) (es : List Event), s.pending = e :: es → e.rst = false →
    let op := e.word.toNat / 4096
    let isReserved := (7 ≤ op ∧ op ≤ 14) ∨
      ((op = 0 ∨ op = 2 ∨ op = 3 ∨ op = 5 ∨ op = 15) ∧ e.word.toNat % 4096 ≠ 0) ∨
      ((op = 4 ∨ op = 6) ∧ e.word.toNat / 256 % 16 ≠ 0)
    (isReserved → step s =
      .next { s with pending := es, out := { status := .illegal, dout := 0#16, dispatch := none } }) ∧
    (¬ isReserved → ∃ i, decode e.word e.host = .operation i)

/-! ### The step -/

/-- 00_scope.md R6, 30_encoding.md R60: where the next event carries a word that decodes to an operation, the step is that
operation's meaning in the state with the event taken; an operation presented by its own event is run. The third clause is the
model's choice and no rule of the spec: `withFetchWord` presents exactly the operation that `decodeTableWord` reads, both with
the zero `HOST` of log 13 (DESIGN CHOICE), as the load of log 1 (DEDUCED). -/
def Obligations.StepRunsTheDecodedOperation : Prop :=
  (∀ (s : State) (e : Event) (es : List Event) (i : Instr), s.pending = e :: es → e.rst = false →
    decode e.word e.host = .operation i → step s = exec i { s with pending := es }) ∧
  (∀ (s : State) (i : Instr), i.wellFormed = true → step { s with pending := i.event :: s.pending } = exec i s) ∧
  (∀ (s : State) (w : Nat) (i : Instr), decodeTableWord 16 w = some i → step (s.withFetchWord 16 w) = exec i s)

/-- The model's choice for a step without an event (log 2), from the sentence of 43_system.md R160 that NOP "stands for a
step in which no agent has an event": such a step is that of NOP, in every state. -/
def Obligations.StepWithoutEventIsNop : Prop :=
  ∀ s : State, s.pending = [] → step s = exec .nop s

/-- 60_exceptions.md R179: of a TICK and a SUBMIT that are ready together the TICK is handled first, so that "a SUBMIT
arriving with the tick that ends a transmission finds the slot free" and "a SUBMIT arriving with a tick in the idle state
has its start bit driven by the following tick". The order is the spec's own decision D15 (log 15). -/
def Obligations.TickIsHandledBeforeSubmit : Prop :=
  ∀ (s : State) (len : Nat) (host : List Byte), Invariants s →
    1 ≤ len → len ≤ s.params.modemMaxLen → len ≤ host.length →
    (s.txActive = true → s.txBitPhase = 10 ∧ s.txCharIndex + 1 = s.txLen) →
    ∃ t u v, step { s with pending := arbitrate ⟨false, true, [], [.submit len host]⟩ ++ [Instr.tick.event] } = .next t ∧
      step t = .next u ∧ step u = .next v ∧
      t.txActive = false ∧ t.line = (if s.txActive then true else s.params.idleLevel) ∧
      u.out.status = .ok ∧ u.txActive = true ∧ u.txLen = len ∧ u.line = t.line ∧
      v.line = false ∧ v.txBitPhase = 1 ∧ v.pending = []

/-! ### Unit A, the RTTY modem -/

/-- 40_modem.md R90, R92, R93: SUBMIT in every state and for every operand. BUSY is tested first, then TOO_LONG, then the
two refused inputs; otherwise the slot holds a copy of the first `len` bytes, every other index keeps its content, the
sequencer is at the first bit of the first character, and nothing else changes. -/
def Obligations.SubmitTestsInOrderThenCopies : Prop :=
  ∀ (s : State) (len : Nat) (host : List Byte),
    (len ≤ 4095 → decode (BitVec.ofNat 16 (0x1000 + len)) host = .operation (.submit len host)) ∧
    (s.txActive = true → exec (.submit len host) s =
      .next { s with out := { status := .busy, dout := 0#16, dispatch := none } }) ∧
    (s.txActive = false → s.params.modemMaxLen < len → exec (.submit len host) s =
      .next { s with out := { status := .tooLong, dout := 0#16, dispatch := none } }) ∧
    (s.txActive = false → len ≤ s.params.modemMaxLen → len = 0 →
      exec (.submit len host) s = .refused .submitEmpty) ∧
    (s.txActive = false → len ≤ s.params.modemMaxLen → len ≠ 0 → host.length < len →
      exec (.submit len host) s = .refused .submitShortHost) ∧
    (s.txActive = false → len ≤ s.params.modemMaxLen → len ≠ 0 → len ≤ host.length →
      ∃ m : Memory, exec (.submit len host) s =
        .next { s with txBuf := m, txLen := len, txCharIndex := 0, txBitPhase := 0, txActive := true,
                       out := { status := .ok, dout := 0#16, dispatch := none } } ∧
        ∀ a, memLookup m a = if a < len then host[a]? else memLookup s.txBuf a)

/-- 40_modem.md R95: TICK in every state that meets the invariants. Idle, it drives the idle level; active, it drives the
bit of the current character that `tx_bit_phase` names, low for the start bit, the data bits least significant first, high
for the stop bits, and then advances; nothing else changes. -/
def Obligations.TickDrivesTheCurrentBitThenAdvances : Prop :=
  decode 0x2000#16 [] = .operation .tick ∧
  ∀ s : State,
    (s.txActive = false → exec .tick s =
      .next { s with line := s.params.idleLevel, out := { status := .ok, dout := 0#16, dispatch := none } }) ∧
    (Invariants s → s.txActive = true → ∃ (c : Byte) (bit : Level), memLookup s.txBuf s.txCharIndex = some c ∧
      [false, c.getLsbD 0, c.getLsbD 1, c.getLsbD 2, c.getLsbD 3, c.getLsbD 4, c.getLsbD 5, c.getLsbD 6, c.getLsbD 7,
        true, true][s.txBitPhase]? = some bit ∧
      (s.txBitPhase < 10 → exec .tick s =
        .next { s with line := bit, txBitPhase := s.txBitPhase + 1,
                       out := { status := .ok, dout := 0#16, dispatch := none } }) ∧
      (s.txBitPhase = 10 → s.txCharIndex + 1 < s.txLen → exec .tick s =
        .next { s with line := bit, txBitPhase := 0, txCharIndex := s.txCharIndex + 1,
                       out := { status := .ok, dout := 0#16, dispatch := none } }) ∧
      (s.txBitPhase = 10 → s.txLen ≤ s.txCharIndex + 1 → exec .tick s =
        .next { s with line := bit, txBitPhase := 0, txCharIndex := 0, txActive := false,
                       out := { status := .ok, dout := 0#16, dispatch := none } }))

/-- 40_modem.md R98 and 30_encoding.md R68, an inference the spec draws from R90 and R95: after an accepted SUBMIT of n
characters, however many steps of other units and failed SUBMITs lie between the ticks, the k-th TICK drives the k-th of
the 11·n line values of the frames; the sequencer is at (k div 11, k mod 11) and the slot is unchanged while k < 11·n, and
every SUBMIT is then answered BUSY with no effect; the tick number 11·n frees the slot. -/
def Obligations.TransmissionSendsItsFrames : Prop :=
  ∀ (s s1 s2 : State) (len : Nat) (host : List Byte) (run : List Instr),
    Invariants s → s.txActive = false → exec (.submit len host) s = .next s1 → s1.out.status = .ok →
    .reset ∉ run → execAll run s1 = .next s2 →
    (tickCount run < 11 * len →
      s2.txActive = true ∧ s2.txCharIndex = tickCount run / 11 ∧ s2.txBitPhase = tickCount run % 11 ∧
      s2.txLen = len ∧ s2.txBuf = s1.txBuf ∧ (∀ a, a < len → memLookup s2.txBuf a = host[a]?) ∧
      (0 < tickCount run → some s2.line = (transmission (host.take len))[tickCount run - 1]?) ∧
      ∀ len' host', exec (.submit len' host') s2 =
        .next { s2 with out := { status := .busy, dout := 0#16, dispatch := none } }) ∧
    (tickCount run + 1 = 11 * len → ∃ s3, exec .tick s2 = .next s3 ∧ s3.txActive = false ∧
      s3.txCharIndex = 0 ∧ s3.txBitPhase = 0 ∧ s3.txBuf = s1.txBuf ∧ s3.txLen = len ∧
      some s3.line = (transmission (host.take len))[tickCount run]?)

/-- 40_modem.md R99, the source's testable property: after a successful one-character SUBMIT exactly eleven ticks send one
low bit, the eight data bits least significant first and two high bits, then the state is inactive, and the twelfth and
later ticks drive `IDLE_LEVEL`. -/
def Obligations.ElevenTicksSendOneCharacter : Prop :=
  ∀ (s : State) (c : Byte) (k : Nat), Invariants s → s.txActive = false →
    ∃ t, execAll (.submit 1 [c] :: ticks k) s = .next t ∧
      (1 ≤ k → k ≤ 11 → some t.line = (([false] ++ (List.range 8).map (fun j => c.getLsbD j) ++ [true, true]))[k - 1]?) ∧
      (t.txActive = true ↔ k < 11) ∧ (12 ≤ k → t.line = s.params.idleLevel)

/-- 10_state.md R18 (d), an inference of the spec: while a transmission is active no operation but RESET changes the bytes
or the length of the slot, and none but TICK moves the sequencer or the line. -/
def Obligations.ActiveSlotIsNotRewritten : Prop :=
  ∀ (s t : State) (i : Instr), s.txActive = true → exec i s = .next t → i ≠ .reset →
    t.txBuf = s.txBuf ∧ t.txLen = s.txLen ∧ (i ≠ .tick → SameModem s t)

/-! ### Unit C, the checksum generator -/

/-- 41_checksum.md R110: CRC_INIT in every state loads 0xFFFF and changes nothing else; two in a row are the same as
one. -/
def Obligations.CrcInitLoadsAllOnes : Prop :=
  decode 0x3000#16 [] = .operation .crcInit ∧
  ∀ s : State, exec .crcInit s =
    .next { s with crc := some 0xFFFF#16, out := { status := .ok, dout := 0#16, dispatch := none } } ∧
    execAll [.crcInit, .crcInit] s = execAll [.crcInit] s

/-- 41_checksum.md R111, R113: CRC_BYTE feeds the byte, bit 7 first, through eight iterations in each of which the bit
shifted out, exclusive-or the data bit, decides whether 0x1021 is applied; nothing else changes; it is refused while `crc`
has no value. -/
def Obligations.CrcByteIsTheBitSerialUpdate : Prop :=
  ∀ (s : State) (data : Byte),
    decode (BitVec.ofNat 16 (0x4000 + data.toNat)) [] = .operation (.crcByte data) ∧
    (s.crc = none → exec (.crcByte data) s = .refused .crcNoValue) ∧
    (∀ c : CrcWord, s.crc = some c → exec (.crcByte data) s =
      .next { s with
        crc := some ([7, 6, 5, 4, 3, 2, 1, 0].foldl
          (fun c k => if (c.getLsbD 15 ^^ data.getLsbD k) = true then (c <<< 1) ^^^ 0x1021#16 else c <<< 1) c)
        out := { status := .ok, dout := 0#16, dispatch := none } })

/-- 41_checksum.md R116, an inference of the spec: the bit-serial step equals the byte-wise form, in which the byte enters
the top half of the register and eight shifts follow. -/
def Obligations.BitSerialEqualsByteWise : Prop :=
  ∀ (c : CrcWord) (b : Byte), crcStep c b = crcStepByteWise c b

/-- 41_checksum.md R112, R113: CRC_READ gives the register on `dout` and changes nothing; it is refused while `crc` has no
value. -/
def Obligations.CrcReadGivesTheRegister : Prop :=
  decode 0x5000#16 [] = .operation .crcRead ∧
  ∀ s : State, (s.crc = none → exec .crcRead s = .refused .crcNoValue) ∧
    (∀ c : CrcWord, s.crc = some c → exec .crcRead s =
      .next { s with out := { status := .ok, dout := c, dispatch := none } })

/-- 41_checksum.md R114: `crc16` of nothing is 0xFFFF, of one byte more is one step more; and after CRC_INIT and then
CRC_BYTE for each byte in order, CRC_READ returns `crc16` of the bytes, from every state. -/
def Obligations.CrcReadReturnsCrc16OfTheBytes : Prop :=
  crc16 [] = 0xFFFF#16 ∧
  (∀ (bs : List Byte) (b : Byte), crc16 (bs ++ [b]) = crcStep (crc16 bs) b) ∧
  ∀ (s : State) (bs : List Byte), ∃ t, execAll (crcOf bs) s = .next t ∧ t.out.dout = crc16 bs ∧
    t = { s with crc := some (crc16 bs), out := t.out }

/-- 20_memory.md R52 (c): "a CRC_READ returns the CRC of exactly the bytes given by the CRC_BYTE steps since the last
CRC_INIT, in their order", with any steps of the other units between them. The total order of steps is the spec's own
decision D1 (log 14). -/
def Obligations.CrcIgnoresOtherUnits : Prop :=
  ∀ (s t : State) (run : List Instr), .reset ∉ run → .crcInit ∉ run → execAll (.crcInit :: run) s = .next t →
    exec .crcRead t = .next { t with out := { status := .ok, dout := crc16 (crcBytes run), dispatch := none } }

/-- 41_checksum.md R115, 30_encoding.md R74, an inference: the four digits of `hex4` are uppercase hexadecimal digits that
read back, most significant first, as the value. -/
def Obligations.HexDigitsReadBack : Prop :=
  ∀ v : CrcWord, ∃ a b c d, hex4 v = [a, b, c, d] ∧
    ∃ x y z u, hexVal false a = some x ∧ hexVal false b = some y ∧ hexVal false c = some z ∧ hexVal false d = some u ∧
      v.toNat = 4096 * x + 256 * y + 16 * z + u

/-- 41_checksum.md R118: the sentence of a body is rendered as `$$` and the body, of n bytes. Sealing it fails exactly if n + 6
exceeds the capacity; otherwise the sentence is those n bytes, `*`, the four digits of what CRC_READ gives after CRC_INIT and
CRC_BYTE for the bytes from index 2 on, and a newline, of length n + 6. -/
def Obligations.SealingUsesTheChecksumUnit : Prop :=
  ∀ (s : State) (body : List Byte) (cap : Nat),
    let p := [0x24#8, 0x24#8] ++ body
    ∃ t, execAll (crcOf (p.drop 2)) s = .next t ∧
      sealSentence body cap =
        (if p.length + 6 > cap then none else some (p ++ [0x2A#8] ++ hex4 t.out.dout ++ [0x0A#8])) ∧
      ∀ sentence, sealSentence body cap = some sentence → sentence.length = p.length + 6

/-- 30_encoding.md R70: the whole telemetry sentences are exactly `$$`, a body, `*`, four uppercase hexadecimal digits and a
newline; the covered bytes are the body and nothing else; the sentence has 8 bytes at least, and one of 8 bytes covers nothing,
so that its CRC is 0xFFFF. -/
def Obligations.WholeSentencesAreTheRenderedOnes : Prop :=
  ∀ s : List Byte,
    (wholeSentence s = true ↔ ∃ (body : List Byte) (d1 d2 d3 d4 : Byte),
      s = [0x24#8, 0x24#8] ++ body ++ [0x2A#8, d1, d2, d3, d4, 0x0A#8] ∧
      ∀ d ∈ [d1, d2, d3, d4], ∃ n, n < 16 ∧ d = hexDigit n) ∧
    (∀ (body : List Byte) (d1 d2 d3 d4 : Byte),
      s = [0x24#8, 0x24#8] ++ body ++ [0x2A#8, d1, d2, d3, d4, 0x0A#8] →
      coveredBytes s = body ∧ sentenceDigits s = [d1, d2, d3, d4]) ∧
    (wholeSentence s = true → 8 ≤ s.length) ∧
    (wholeSentence s = true → s.length = 8 → crc16 (coveredBytes s) = 0xFFFF#16)

/-- 30_encoding.md R71 with R69, R70: the check that a receiver makes accepts every sealed sentence, and accepts a body of the
same length under the same suffix exactly if the two bodies have the same CRC; whatever it accepts has the digits of the CRC of
its covered bytes. R71 gives the check as that equality of digits alone: that the check also asks for a whole sentence of R70,
and so accepts whole sentences only, is the model's choice (log 23, DEDUCED) and no rule of the spec. -/
def Obligations.ReceiverAcceptsSealedSentences : Prop :=
  (∀ (body sentence : List Byte) (cap : Nat), sealSentence body cap = some sentence →
    receiverCheck sentence = true ∧ coveredBytes sentence = body ∧
    ∀ other : List Byte, other.length = body.length →
      (receiverCheck ([0x24#8, 0x24#8] ++ other ++ sentence.drop (2 + body.length)) = true ↔
        crc16 other = crc16 body)) ∧
  ∀ s : List Byte, receiverCheck s = true →
    wholeSentence s = true ∧ hex4 (crc16 (coveredBytes s)) = sentenceDigits s

/-- 41_checksum.md R117: `xor8` of nothing is 0, one byte more is one exclusive-or more; it does not depend on the order of
the bytes; changing one bit of one byte changes exactly that bit of the result; two equal bytes cancel; `xor8` of `AB` is
0x03. -/
def Obligations.XorChecksumLaws : Prop :=
  xor8 [] = 0#8 ∧
  (∀ (bs : List Byte) (b : Byte), xor8 (bs ++ [b]) = xor8 bs ^^^ b) ∧
  (∀ as bs : List Byte, as.Perm bs → xor8 as = xor8 bs) ∧
  (∀ (as bs : List Byte) (b : Byte) (j : Nat), j < 8 →
    xor8 (as ++ (b ^^^ (1#8 <<< j)) :: bs) = xor8 (as ++ b :: bs) ^^^ (1#8 <<< j)) ∧
  (∀ (as bs cs : List Byte) (b : Byte), xor8 (as ++ b :: bs ++ b :: cs) = xor8 (as ++ bs ++ cs)) ∧
  xor8 [0x41#8, 0x42#8] = 0x03#8

/-! ### Unit B, the NMEA ingest -/

/-- 42_nmea.md R130, R131, R135: NMEA_RX in every state that meets the invariants, by the byte and the capture state. `at`
is where `append` stores: index 0 for a start marker or when the buffer is full. Every other index of the line buffer keeps
its content, and nothing else changes. -/
def Obligations.NmeaRxFollowsTheTransitionTable : Prop :=
  ∀ (s : State) (b : Byte), Invariants s →
    decode (BitVec.ofNat 16 (0x6000 + b.toNat)) [] = .operation (.nmeaRx b) ∧
    let at_ := if b = 0x24#8 ∨ s.rxIndex = s.params.nmeaBufLen then 0 else s.rxIndex
    let okOut : Outputs := { status := .ok, dout := 0#16, dispatch := none }
    (b ≠ 0x24#8 → s.rxState = .awaitStart → exec (.nmeaRx b) s = .next { s with out := okOut }) ∧
    (b = 0x24#8 ∨ s.rxState ≠ .awaitStart →
      ∃ m : Memory, (∀ a, memLookup m a = if a = at_ then some b else memLookup s.rxBuf a) ∧
      (b = 0x24#8 → exec (.nmeaRx b) s =
        .next { s with rxBuf := m, rxIndex := 1, rxState := .capturing, rxCsCount := 0, out := okOut }) ∧
      (b ≠ 0x24#8 → s.rxState = .capturing → exec (.nmeaRx b) s =
        .next { s with rxBuf := m, rxIndex := at_ + 1, rxState := if b = 0x2A#8 then .inChecksum else .capturing,
                       rxCsCount := 0, out := okOut }) ∧
      (b ≠ 0x24#8 → s.rxState = .inChecksum → s.rxCsCount = 0 → exec (.nmeaRx b) s =
        .next { s with rxBuf := m, rxIndex := at_ + 1, rxCsCount := 1, out := okOut }) ∧
      (b ≠ 0x24#8 → s.rxState = .inChecksum → s.rxCsCount = 1 →
        ∃ l : List Byte, l.length = at_ + 1 ∧ (∀ a, a < at_ + 1 → l[a]? = memLookup m a) ∧
        exec (.nmeaRx b) s =
          .next { s with
            rxBuf := m, rxIndex := at_ + 1, rxState := .awaitStart, rxCsCount := 0
            gpsSnapshot := if validate s.params.nmeaHexLowerOk l then gpsUpdate s.gpsSnapshot l else s.gpsSnapshot
            out := { status := .ok, dout := 0#16, dispatch := some (l, validate s.params.nmeaHexLowerOk l) } }))

/-- 42_nmea.md R140 with 30_encoding.md R73: a captured line validates exactly if it is a start marker, a body, a checksum
marker and two hexadecimal digits whose number is the exclusive-or of the body. That a line of another shape is rejected
is the spec's own decision D28. -/
def Obligations.ValidLinesAreTheWellFormedOnes : Prop :=
  ∀ (lowerOk : Bool) (l : List Byte), validate lowerOk l = true ↔
    ∃ (body : List Byte) (h1 h2 : Byte) (x y : Nat), l = [0x24#8] ++ body ++ [0x2A#8, h1, h2] ∧
      hexVal lowerOk h1 = some x ∧ hexVal lowerOk h2 = some y ∧ (xor8 body).toNat = 16 * x + y

/-- 42_nmea.md R142 with 30_encoding.md R74: the digits that are read. Uppercase is always accepted, lowercase only if
`NMEA_HEX_LOWER_OK` is true, whose default is false, and every other byte is no digit; with the default `$J*4A` is valid and
`$J*4a` is rejected. -/
def Obligations.HexDigitsAccepted : Prop :=
  Config.defaultParams.nmeaHexLowerOk = false ∧
  validate Config.defaultParams.nmeaHexLowerOk [0x24#8, 0x4A#8, 0x2A#8, 0x34#8, 0x41#8] = true ∧
  validate Config.defaultParams.nmeaHexLowerOk [0x24#8, 0x4A#8, 0x2A#8, 0x34#8, 0x61#8] = false ∧
  ∀ (lowerOk : Bool) (b : Byte) (n : Nat), hexVal lowerOk b = some n ↔
    n < 16 ∧ (b = hexDigit n ∨ (lowerOk = true ∧ 10 ≤ n ∧ b = hexDigit n + 0x20#8))

/-- 42_nmea.md R134, R138, R140, R149, an inference: a line that fits the buffer, fed byte by byte from any state that
meets the invariants, produces no dispatch before its second checksum byte, and is then dispatched whole, with the verdict
that compares its digits with the exclusive-or of its body; the snapshot is updated exactly if the verdict is true; nothing
of the other units changes. -/
def Obligations.FittingLineIsDispatchedWhole : Prop :=
  ∀ (s : State) (body : List Byte) (h1 h2 : Byte), Invariants s →
    0x24#8 ∉ body → 0x2A#8 ∉ body → h1 ≠ 0x24#8 → h2 ≠ 0x24#8 → body.length + 4 ≤ s.params.nmeaBufLen →
    let text := [0x24#8] ++ body ++ [0x2A#8, h1, h2]
    let verdict := checksumMatches s.params.nmeaHexLowerOk body h1 h2
    (∀ k, 0 < k → k < text.length → ∃ t, execAll (nmeaBurst (text.take k)) s = .next t ∧ t.out.dispatch = none ∧
      t.gpsSnapshot = s.gpsSnapshot ∧ t.rxIndex = k ∧ (∀ a, a < k → memLookup t.rxBuf a = text[a]?)) ∧
    ∃ t, execAll (nmeaBurst text) s = .next t ∧ t.out.dispatch = some (text, verdict) ∧
      t.gpsSnapshot = (if verdict then gpsUpdate s.gpsSnapshot text else s.gpsSnapshot) ∧
      t.rxState = .awaitStart ∧ t.rxCsCount = 0 ∧ t.rxIndex = text.length ∧
      (∀ a, a < text.length → memLookup t.rxBuf a = text[a]?) ∧ SameModem s t ∧ SameChecksum s t

/-- 42_nmea.md R136, R141, an inference: a line that does not fit the buffer, fed byte by byte, dispatches nothing before its
second checksum byte, and there is dispatched with a false verdict, whatever its digits; every step of it answers OK and leaves
the snapshot unchanged. -/
def Obligations.OverlongLineIsRejected : Prop :=
  ∀ (s : State) (body : List Byte) (h1 h2 : Byte), Invariants s →
    0x24#8 ∉ body → 0x2A#8 ∉ body → h1 ≠ 0x24#8 → h2 ≠ 0x24#8 → s.params.nmeaBufLen < body.length + 4 →
    let text := [0x24#8] ++ body ++ [0x2A#8, h1, h2]
    (∀ k, 0 < k → k < text.length → ∃ t, execAll (nmeaBurst (text.take k)) s = .next t ∧
      t.out = { status := .ok, dout := 0#16, dispatch := none } ∧ t.gpsSnapshot = s.gpsSnapshot) ∧
    ∃ (t : State) (l : List Byte), execAll (nmeaBurst text) s = .next t ∧
      t.out = { status := .ok, dout := 0#16, dispatch := some (l, false) } ∧ l.length = t.rxIndex ∧
      t.gpsSnapshot = s.gpsSnapshot ∧ t.rxState = .awaitStart

/-- 42_nmea.md R145 (a), an inference: a valid line with one bit of one body byte inverted, where the new byte is neither
marker, is dispatched and rejected, and the previous snapshot is retained. -/
def Obligations.SingleBitCorruptionIsRejected : Prop :=
  ∀ (s : State) (pre post : List Byte) (b h1 h2 : Byte) (j : Nat), Invariants s → j < 8 →
    let body := pre ++ b :: post
    let bad := pre ++ (b ^^^ (1#8 <<< j)) :: post
    0x24#8 ∉ body → 0x2A#8 ∉ body → 0x24#8 ∉ bad → 0x2A#8 ∉ bad → body.length + 4 ≤ s.params.nmeaBufLen →
    validate s.params.nmeaHexLowerOk ([0x24#8] ++ body ++ [0x2A#8, h1, h2]) = true →
    ∃ t, execAll (nmeaBurst ([0x24#8] ++ bad ++ [0x2A#8, h1, h2])) s = .next t ∧
      t.out.dispatch = some ([0x24#8] ++ bad ++ [0x2A#8, h1, h2], false) ∧ t.gpsSnapshot = s.gpsSnapshot

/-- 42_nmea.md R133: in AWAIT_START every run of bytes without a start marker is dropped: nothing is stored, counted or
dispatched; this is the state after reset and after every dispatch. -/
def Obligations.BytesBeforeStartAreDropped : Prop :=
  (∀ (s : State) (bs : List Byte), s.rxState = .awaitStart → 0x24#8 ∉ bs → bs ≠ [] →
    execAll (nmeaBurst bs) s = .next { s with out := { status := .ok, dout := 0#16, dispatch := none } }) ∧
  State.reset.rxState = .awaitStart ∧
  ∀ (s t : State) (i : Instr), exec i s = .next t → t.out.dispatch ≠ none → t.rxState = .awaitStart

/-- 42_nmea.md R137, R138: a dispatch happens exactly in the NMEA_RX step that takes, in IN_CHECKSUM with count 1, a byte
other than the start marker. -/
def Obligations.DispatchExactlyAtSecondWindowByte : Prop :=
  ∀ (s t : State) (i : Instr), Invariants s → exec i s = .next t →
    (t.out.dispatch.isSome = true ↔
      ∃ b, i = .nmeaRx b ∧ b ≠ 0x24#8 ∧ s.rxState = .inChecksum ∧ s.rxCsCount = 1)

/-- 42_nmea.md R141, R144, "fail closed": in a step of any operation but RESET (which the rule does not except and
43_system.md R161 writes, log 25) the snapshot keeps its value, unless the step dispatches a line with a true verdict, and
then it becomes `gps_update` of the old snapshot and the line. -/
def Obligations.SnapshotChangesOnlyOnValidDispatch : Prop :=
  ∀ (s t : State) (i : Instr), i ≠ .reset → exec i s = .next t →
    ((∀ l, t.out.dispatch ≠ some (l, true)) → t.gpsSnapshot = s.gpsSnapshot) ∧
    (∀ l v, t.out.dispatch = some (l, v) → v = validate s.params.nmeaHexLowerOk l ∧
      (v = true → t.gpsSnapshot = gpsUpdate s.gpsSnapshot l))

/-- 42_nmea.md R146, the one law that the source states of `gps_update`: in the step that dispatches a validated line, a
zero fix-quality indicator forces latitude, longitude and altitude to zero, whatever the snapshot held; otherwise the parser's
result stands as it is. The parser and the indicator are constants without a value (log 8). -/
def Obligations.ZeroFixForcesZeroTriple : Prop :=
  ∀ (s t : State) (b : Byte) (l : List Byte), exec (.nmeaRx b) s = .next t → t.out.dispatch = some (l, true) →
    (Config.zeroFixQuality l = true → t.gpsSnapshot.zeroTriple) ∧
    (Config.zeroFixQuality l = false → t.gpsSnapshot = Config.gpsFields s.gpsSnapshot l)

/-! ### System operations, outputs and the whole block -/

/-- 43_system.md R160: NOP leaves the state as it was. -/
def Obligations.NopChangesNothing : Prop :=
  decode 0x0000#16 [] = .operation .nop ∧
  ∀ s : State, exec .nop s = .next { s with out := { status := .ok, dout := 0#16, dispatch := none } }

/-- 43_system.md R161: RESET from any state puts every element at its reset value, and the `rst` input does the same
whatever the command word is. The values are the spec's own decision D32 (log 18). -/
def Obligations.ResetWritesEveryElement : Prop :=
  decode 0xF000#16 [] = .operation .reset ∧
  (∀ (s : State) (e : Event) (es : List Event), s.pending = e :: es → e.rst = true →
    step s = exec .reset { s with pending := es }) ∧
  ∀ s : State, exec .reset s =
    .next { params := s.params, pending := s.pending, out := { status := .ok, dout := 0#16, dispatch := none },
            line := s.params.idleLevel, txBuf := [], txLen := 0, txCharIndex := 0, txBitPhase := 0, txActive := false,
            crc := none, rxState := .awaitStart, rxCsCount := 0, rxBuf := [], rxIndex := 0,
            gpsSnapshot := s.params.snapshotInit }

/-- 10_state.md R31: the state after reset is the one that RESET leaves, and it meets the invariants. The values of the
parameters in it are the model's choice (log 5, 6). -/
def Obligations.ResetStateMeetsInvariants : Prop :=
  Invariants State.reset ∧ MarkersOk State.reset ∧ exec .reset State.reset = .next State.reset

/-- 30_encoding.md R66: the codes of the status; only SUBMIT returns BUSY or TOO_LONG, only a reserved word returns
ILLEGAL, every other operation returns OK. -/
def Obligations.StatusOfEachOperation : Prop :=
  (Status.code .ok = 0#2 ∧ Status.code .busy = 1#2 ∧ Status.code .tooLong = 2#2 ∧ Status.code .illegal = 3#2) ∧
  (∀ (s t : State) (i : Instr), exec i s = .next t →
    t.out.status ≠ .illegal ∧ ((∀ len host, i ≠ .submit len host) → t.out.status = .ok)) ∧
  (∀ (s t : State), step s = .next t →
    (t.out.status = .illegal ↔ ∃ e es why, s.pending = e :: es ∧ e.rst = false ∧ decode e.word e.host = .reserved why))

/-- 60_exceptions.md R170, R171, D35: a step of an operation that reports BUSY or TOO_LONG changes no state, and no
operation but CRC_READ gives a value on `dout`. -/
def Obligations.ErrorReportsChangeNothing : Prop :=
  ∀ (s t : State) (i : Instr), exec i s = .next t →
    (t.out.status ≠ .ok → t = { s with out := t.out }) ∧ (i ≠ .crcRead → t.out.dout = 0#16)

/-- 10_state.md R10, R12 to R24, an inference: each element is written by the operations that its rule names and by no
other, no operation of one unit writes an element of another, and no step writes the parameters. -/
def Obligations.EachElementHasItsWriters : Prop :=
  ∀ (s t : State) (i : Instr), exec i s = .next t →
    t.params = s.params ∧ t.pending = s.pending ∧
    (i ≠ .reset → (unitOf i ≠ .modem → SameModem s t) ∧ (unitOf i ≠ .checksum → SameChecksum s t) ∧
      (unitOf i ≠ .ingest → SameIngest s t) ∧
      (i ≠ .tick → t.line = s.line) ∧ (i = .tick → t.txBuf = s.txBuf ∧ t.txLen = s.txLen) ∧
      (i = .crcRead → t.crc = s.crc) ∧
      ∀ a, memLookup t.rxBuf a ≠ memLookup s.rxBuf a → t.rxIndex = a + 1)

/-- 20_memory.md R53, an inference: two adjacent operations of different units, neither of them RESET, can be exchanged:
the final state of the block and the outputs of each of the two steps are the same. -/
def Obligations.StepsOfDifferentUnitsCommute : Prop :=
  ∀ (s s1 s2 : State) (i j : Instr), i ≠ .reset → j ≠ .reset → unitOf i ≠ unitOf j →
    exec i s = .next s1 → exec j s1 = .next s2 →
    ∃ t1 t2, exec j s = .next t1 ∧ exec i t1 = .next t2 ∧
      t1.out = s2.out ∧ t2.out = s1.out ∧ s2 = { t2 with out := s2.out }

/-- 10_state.md R18, R25, inferences of the spec by induction over steps: every step of every event, from every state that
meets the invariants, leaves a state that meets them. -/
def Obligations.StepKeepsInvariants : Prop :=
  ∀ s t : State, Invariants s → step s = .next t → Invariants t

/-- 42_nmea.md R140, 10_state.md R25 (e), inferences: every step keeps the rule of where the markers stand in the captured
part of the line buffer. -/
def Obligations.StepKeepsMarkers : Prop :=
  ∀ s t : State, Invariants s → MarkersOk s → step s = .next t → MarkersOk t

/-- 20_memory.md R43 and 93_implementation_defined.md, last sentence of part 1: from every state that meets the invariants
no step faults; an operation is refused exactly on the inputs U3 to U5, and answers a next state on all others. -/
def Obligations.OnlyTheRefusedInputsStop : Prop :=
  ∀ s : State, Invariants s → SafeAnswer (step s) ∧
    ∀ i : Instr, ((∃ t, exec i s = .next t) ↔ ¬ RefusedInput i s) ∧ ((∃ r, exec i s = .refused r) ↔ RefusedInput i s)
end

