-- ==== Sys2Proof/Laws/Decode.lean ====
section
/-! SUPPORT. The fields of a command word and the words of the operations, as numbers. -/

namespace Sys2Proof

theorem opField_eq (w : CommandWord) : opField w = w.toNat / 4096 := by
  have := w.isLt
  simp only [opField, BitVec.extractLsb'_toNat, Nat.shiftRight_eq_div_pow]
  omega

theorem argField_eq (w : CommandWord) : argField w = w.toNat % 4096 := by
  simp [argField, BitVec.extractLsb'_toNat]

theorem highArgField_eq (w : CommandWord) : highArgField w = w.toNat / 256 % 16 := by
  simp [highArgField, BitVec.extractLsb'_toNat, Nat.shiftRight_eq_div_pow]

theorem dataField_toNat (w : CommandWord) : (dataField w).toNat = w.toNat % 256 := by
  simp [dataField, BitVec.extractLsb'_toNat]

theorem append_toNat_12 (op : BitVec 4) (a : BitVec 12) : (op ++ a).toNat = op.toNat * 4096 + a.toNat := by
  have := a.isLt
  rw [BitVec.toNat_append, ← Nat.shiftLeft_add_eq_or_of_lt this, Nat.shiftLeft_eq]

theorem append_toNat_8 (op hi : BitVec 4) (d : BitVec 8) :
    (op ++ hi ++ d).toNat = op.toNat * 4096 + hi.toNat * 256 + d.toNat := by
  have h1 := d.isLt
  have h2 := hi.isLt
  rw [BitVec.toNat_append, ← Nat.shiftLeft_add_eq_or_of_lt h1, Nat.shiftLeft_eq, BitVec.toNat_append,
    ← Nat.shiftLeft_add_eq_or_of_lt h2, Nat.shiftLeft_eq]
  omega

/-- The word of each operation as a number (30_encoding.md R62). -/
theorem encode_toNat (i : Instr) (h : i.wellFormed = true) : (encode i).toNat =
    match i with
    | .nop => 0
    | .submit len _ => 0x1000 + len
    | .tick => 0x2000
    | .crcInit => 0x3000
    | .crcByte d => 0x4000 + d.toNat
    | .crcRead => 0x5000
    | .nmeaRx d => 0x6000 + d.toNat
    | .reset => 0xF000 := by
  cases i with
  | submit len host =>
    have hl : len ≤ 4095 := by simpa [Instr.wellFormed] using h
    simp only [encode, append_toNat_12, BitVec.toNat_ofNat]
    omega
  | crcByte d => simp only [encode, append_toNat_8]; rfl
  | nmeaRx d => simp only [encode, append_toNat_8]; rfl
  | _ => rfl

/-- The two answers of the format Z decoder. -/
theorem decodeZ_eq_operation {w : CommandWord} {i j : Instr} :
    decodeZ w i = .operation j ↔ w.toNat % 4096 = 0 ∧ j = i := by
  unfold decodeZ
  rw [argField_eq]
  split <;> simp_all [eq_comm]

/-- The two answers of the format B decoder. -/
theorem decodeB_eq_operation {w : CommandWord} {i : Byte → Instr} {j : Instr} :
    decodeB w i = .operation j ↔ w.toNat / 256 % 16 = 0 ∧ j = i (dataField w) := by
  unfold decodeB
  rw [highArgField_eq]
  split <;> simp_all [eq_comm]

/-- The decoder said once: which operation a word is, by its number (30_encoding.md R64). -/
theorem decode_eq_operation {w : CommandWord} {host : List Byte} {j : Instr} :
    decode w host = .operation j ↔
      (w.toNat = 0 ∧ j = .nop) ∨
      (w.toNat / 4096 = 1 ∧ j = .submit (w.toNat % 4096) host) ∨
      (w.toNat = 0x2000 ∧ j = .tick) ∨
      (w.toNat = 0x3000 ∧ j = .crcInit) ∨
      (w.toNat / 256 = 0x40 ∧ j = .crcByte (dataField w)) ∨
      (w.toNat = 0x5000 ∧ j = .crcRead) ∨
      (w.toNat / 256 = 0x60 ∧ j = .nmeaRx (dataField w)) ∨
      (w.toNat = 0xF000 ∧ j = .reset) := by
  have hw := w.isLt
  have hop := opField_eq w
  unfold decode
  split
  case h_9 h0 h1 h2 h3 h4 h5 h6 h15 =>
    have n0 : ¬ opField w = 0 := h0
    have n1 : ¬ opField w = 1 := h1
    have n2 : ¬ opField w = 2 := h2
    have n3 : ¬ opField w = 3 := h3
    have n4 : ¬ opField w = 4 := h4
    have n5 : ¬ opField w = 5 := h5
    have n6 : ¬ opField w = 6 := h6
    have n15 : ¬ opField w = 15 := h15
    simp only [reduceCtorEq, false_iff]
    rintro (⟨_, _⟩ | ⟨_, _⟩ | ⟨_, _⟩ | ⟨_, _⟩ | ⟨_, _⟩ | ⟨_, _⟩ | ⟨_, _⟩ | ⟨_, _⟩) <;> omega
  all_goals
    rename_i h
    simp only [decodeZ_eq_operation, decodeB_eq_operation, argField_eq, Decoded.operation.injEq]
    constructor
    · intro hj
      simp only [hj, and_true, reduceCtorEq, and_false, or_false, false_or]
      omega
    · rintro (⟨_, rfl⟩ | ⟨_, rfl⟩ | ⟨_, rfl⟩ | ⟨_, rfl⟩ | ⟨_, rfl⟩ | ⟨_, rfl⟩ | ⟨_, rfl⟩ | ⟨_, rfl⟩) <;>
        first | exact ⟨by omega, rfl⟩ | rfl | omega

end Sys2Proof
end

