-- ==== Sys2Proof/Laws/Memory.lean ====
section
/-! SUPPORT. What the buffer operations do: a read after a store, the canonical form, and the reads of one and of
several bytes. -/

namespace Sys2Proof.Machine

@[simp] theorem memLookup_nil (i : Nat) : memLookup [] i = none := rfl

theorem memLookup_cons (b : Nat) (v : Byte) (m : Memory) (i : Nat) :
    memLookup ((b, v) :: m) i = if i = b then some v else memLookup m i := rfl

theorem memLookup_append (m n : Memory) (i : Nat) :
    memLookup (m ++ n) i = (memLookup m i).or (memLookup n i) := by
  induction m with
  | nil => simp
  | cons c m ih =>
    obtain ⟨b, v⟩ := c
    rw [List.cons_append, memLookup_cons, memLookup_cons, ih]
    split <;> simp

/-- A filter by index decides at the index that is looked up. -/
theorem memLookup_filter (p : Nat → Bool) (m : Memory) (i : Nat) :
    memLookup (m.filter fun c => p c.1) i = if p i then memLookup m i else none := by
  induction m with
  | nil => simp
  | cons c m ih =>
    obtain ⟨b, v⟩ := c
    by_cases hb : p b
    · rw [List.filter_cons_of_pos (by simpa using hb), memLookup_cons, memLookup_cons, ih]
      by_cases hi : i = b <;> simp [hi, hb]
    · rw [List.filter_cons_of_neg (by simpa using hb), memLookup_cons, ih]
      by_cases hi : i = b
      · subst hi; simp [hb]
      · simp [hi]

theorem memLookup_memCells (a : Nat) (vs : List Byte) (i : Nat) :
    memLookup (memCells a vs) i = if a ≤ i then vs[i - a]? else none := by
  induction vs generalizing a with
  | nil => simp [memCells]
  | cons v vs ih =>
    rw [memCells, memLookup_cons, ih]
    by_cases h : i = a
    · simp [h]
    · by_cases h' : a ≤ i
      · have h2 : i - a = (i - (a + 1)) + 1 := by omega
        have h3 : a + 1 ≤ i := by omega
        simp [h, h', h3, h2]
      · have h3 : ¬ a + 1 ≤ i := by omega
        simp [h, h', h3]

/-- A read after a store: the stored bytes at their indices, every other index as it was. -/
theorem memLookup_memStore (a : Nat) (vs : List Byte) (m : Memory) (i : Nat) :
    memLookup (memStore a vs m) i = if a ≤ i ∧ i < a + vs.length then vs[i - a]? else memLookup m i := by
  rw [memStore, memLookup_append, memLookup_append, memLookup_filter (fun k => decide (k < a)),
    memLookup_filter (fun k => decide (a + vs.length ≤ k)), memLookup_memCells]
  by_cases h1 : i < a
  · have h2 : ¬ a ≤ i := by omega
    have h3 : ¬ a + vs.length ≤ i := by omega
    simp [h1, h2, h3]
  · by_cases h2 : i < a + vs.length
    · have h3 : a ≤ i := by omega
      have h4 : ¬ a + vs.length ≤ i := by omega
      simp [h1, h2, h3, h4]
    · have h3 : a ≤ i := by omega
      have h4 : a + vs.length ≤ i := by omega
      have h5 : vs[i - a]? = none := List.getElem?_eq_none (by omega)
      simp [h1, h2, h3, h4, h5]

/-- A store of one byte. -/
theorem memLookup_memStore_one (a : Nat) (v : Byte) (m : Memory) (i : Nat) :
    memLookup (memStore a [v] m) i = if i = a then some v else memLookup m i := by
  rw [memLookup_memStore]
  by_cases h : i = a
  · simp [h]
  · rw [if_neg (by simp only [List.length_singleton]; omega), if_neg h]

theorem mem_memCells {a : Nat} {vs : List Byte} {c : Host.Cell} (h : c ∈ memCells a vs) :
    a ≤ c.1 ∧ c.1 < a + vs.length := by
  induction vs generalizing a with
  | nil => simp [memCells] at h
  | cons v vs ih =>
    rcases List.mem_cons.mp h with h | h
    · simp [h]
    · have := ih h
      simp only [List.length_cons]; omega

theorem memCells_wf (a : Nat) (vs : List Byte) : (memCells a vs).wf = true := by
  induction vs generalizing a with
  | nil => simp [memCells, Memory.wf]
  | cons v vs ih =>
    have h := ih (a + 1)
    simp only [Memory.wf, decide_eq_true_eq] at h ⊢
    refine List.pairwise_cons.mpr ⟨fun c hc => ?_, h⟩
    have := (mem_memCells hc).1
    simp only; omega

@[simp] theorem Memory.wf_nil : Memory.wf [] = true := rfl

@[simp] theorem Memory.within_nil (size : Nat) : Memory.within size [] = true := rfl

/-- Every store keeps the canonical form. -/
theorem memStore_wf (a : Nat) (vs : List Byte) {m : Memory} (h : m.wf = true) : (memStore a vs m).wf = true := by
  have hc := memCells_wf a vs
  simp only [Memory.wf, decide_eq_true_eq] at h hc ⊢
  refine List.pairwise_append.mpr ⟨List.pairwise_append.mpr ⟨h.filter _, hc, ?_⟩, h.filter _, ?_⟩
  · intro c hl d hr
    have h1 : c.1 < a := by simpa using (List.mem_filter.mp hl).2
    have h2 := (mem_memCells hr).1
    omega
  · intro c hl d hr
    have h2 : a + vs.length ≤ d.1 := by simpa using (List.mem_filter.mp hr).2
    rcases List.mem_append.mp hl with hl | hl
    · have h1 : c.1 < a := by simpa using (List.mem_filter.mp hl).2
      omega
    · have := (mem_memCells hl).2
      omega

/-- A store inside the buffer leaves no index outside it. -/
theorem memStore_within (a : Nat) (vs : List Byte) {m : Memory} {size : Nat} (h : m.within size = true)
    (hs : a + vs.length ≤ size) : (memStore a vs m).within size = true := by
  simp only [Memory.within, List.all_eq_true, decide_eq_true_eq] at h ⊢
  intro c hc
  rcases List.mem_append.mp hc with hc | hc
  · rcases List.mem_append.mp hc with hc | hc
    · exact h c (List.mem_filter.mp hc).1
    · have := (mem_memCells hc).2
      omega
  · exact h c (List.mem_filter.mp hc).1

/-- `readByte` answers a byte exactly where the index exists and holds that byte. -/
theorem readByte_ok_iff {sp : Space} {a : Nat} {s : State} {v : Byte} :
    readByte sp a s = .ok v ↔ a < spaceSize s sp ∧ memLookup (spaceContent s sp) a = some v := by
  unfold readByte
  split
  · rename_i h
    cases hl : memLookup (spaceContent s sp) a <;> simp [h]
  · rename_i h
    simp [h]

/-- `readBytes` answers the bytes of the indices from `a` on, if each exists and holds a value. -/
theorem readBytes_ok {sp : Space} {a n : Nat} {s : State} (hs : a + n ≤ spaceSize s sp)
    (hv : ∀ i, i < n → (memLookup (spaceContent s sp) (a + i)).isSome = true) :
    ∃ l, readBytes sp a s n = .ok l ∧ l.length = n ∧
      ∀ i, i < n → l[i]? = memLookup (spaceContent s sp) (a + i) := by
  induction n generalizing a with
  | zero => exact ⟨[], rfl, rfl, by simp⟩
  | succ n ih =>
    obtain ⟨v, hv0⟩ := Option.isSome_iff_exists.mp (hv 0 (by omega))
    have hr : readByte sp a s = .ok v := readByte_ok_iff.mpr ⟨by omega, by simpa using hv0⟩
    obtain ⟨l, hl, hn, hi⟩ := ih (a := a + 1) (by omega)
      (fun i h => by have := hv (i + 1) (by omega); rwa [show a + 1 + i = a + (i + 1) by omega])
    refine ⟨v :: l, by simp [readBytes, hr, hl], by simp [hn], fun i h => ?_⟩
    cases i with
    | zero => simpa using hv0.symm
    | succ i => simpa [show a + (i + 1) = a + 1 + i by omega] using hi i (by omega)

/-- What `readBytes` answers, where it answers: as many bytes as asked, each the one at its index. -/
theorem readBytes_ok_spec {sp : Space} {a n : Nat} {s : State} {l : List Byte} (h : readBytes sp a s n = .ok l) :
    l.length = n ∧ ∀ i, i < n → l[i]? = memLookup (spaceContent s sp) (a + i) := by
  induction n generalizing a l with
  | zero =>
    cases h
    exact ⟨rfl, by simp⟩
  | succ n ih =>
    rw [readBytes] at h
    split at h
    · cases h
    · rename_i v hv
      split at h
      · cases h
      · rename_i vs hvs
        cases h
        obtain ⟨hn, hi⟩ := ih hvs
        refine ⟨by simp [hn], fun i hlt => ?_⟩
        cases i with
        | zero => simpa using (readByte_ok_iff.mp hv).2.symm
        | succ i => simpa [show a + (i + 1) = a + 1 + i by omega] using hi i (by omega)

end Sys2Proof.Machine
end

