-- ==== Sys2Proof/Laws/State.lean ====
section
/-! SUPPORT. One lemma per field per named update of the state, each true by rfl. -/

namespace Sys2Proof.Machine

@[simp] theorem setOut_params (o : Outputs) (s : State) : (setOut o s).params = s.params := rfl
@[simp] theorem setOut_pending (o : Outputs) (s : State) : (setOut o s).pending = s.pending := rfl
@[simp] theorem setOut_out (o : Outputs) (s : State) : (setOut o s).out = o := rfl
@[simp] theorem setOut_line (o : Outputs) (s : State) : (setOut o s).line = s.line := rfl
@[simp] theorem setOut_txBuf (o : Outputs) (s : State) : (setOut o s).txBuf = s.txBuf := rfl
@[simp] theorem setOut_txLen (o : Outputs) (s : State) : (setOut o s).txLen = s.txLen := rfl
@[simp] theorem setOut_txCharIndex (o : Outputs) (s : State) : (setOut o s).txCharIndex = s.txCharIndex := rfl
@[simp] theorem setOut_txBitPhase (o : Outputs) (s : State) : (setOut o s).txBitPhase = s.txBitPhase := rfl
@[simp] theorem setOut_txActive (o : Outputs) (s : State) : (setOut o s).txActive = s.txActive := rfl
@[simp] theorem setOut_crc (o : Outputs) (s : State) : (setOut o s).crc = s.crc := rfl
@[simp] theorem setOut_rxState (o : Outputs) (s : State) : (setOut o s).rxState = s.rxState := rfl
@[simp] theorem setOut_rxCsCount (o : Outputs) (s : State) : (setOut o s).rxCsCount = s.rxCsCount := rfl
@[simp] theorem setOut_rxBuf (o : Outputs) (s : State) : (setOut o s).rxBuf = s.rxBuf := rfl
@[simp] theorem setOut_rxIndex (o : Outputs) (s : State) : (setOut o s).rxIndex = s.rxIndex := rfl
@[simp] theorem setOut_gpsSnapshot (o : Outputs) (s : State) : (setOut o s).gpsSnapshot = s.gpsSnapshot := rfl

@[simp] theorem setLine_params (l : Level) (s : State) : (setLine l s).params = s.params := rfl
@[simp] theorem setLine_pending (l : Level) (s : State) : (setLine l s).pending = s.pending := rfl
@[simp] theorem setLine_out (l : Level) (s : State) : (setLine l s).out = s.out := rfl
@[simp] theorem setLine_line (l : Level) (s : State) : (setLine l s).line = l := rfl
@[simp] theorem setLine_txBuf (l : Level) (s : State) : (setLine l s).txBuf = s.txBuf := rfl
@[simp] theorem setLine_txLen (l : Level) (s : State) : (setLine l s).txLen = s.txLen := rfl
@[simp] theorem setLine_txCharIndex (l : Level) (s : State) : (setLine l s).txCharIndex = s.txCharIndex := rfl
@[simp] theorem setLine_txBitPhase (l : Level) (s : State) : (setLine l s).txBitPhase = s.txBitPhase := rfl
@[simp] theorem setLine_txActive (l : Level) (s : State) : (setLine l s).txActive = s.txActive := rfl
@[simp] theorem setLine_crc (l : Level) (s : State) : (setLine l s).crc = s.crc := rfl
@[simp] theorem setLine_rxState (l : Level) (s : State) : (setLine l s).rxState = s.rxState := rfl
@[simp] theorem setLine_rxCsCount (l : Level) (s : State) : (setLine l s).rxCsCount = s.rxCsCount := rfl
@[simp] theorem setLine_rxBuf (l : Level) (s : State) : (setLine l s).rxBuf = s.rxBuf := rfl
@[simp] theorem setLine_rxIndex (l : Level) (s : State) : (setLine l s).rxIndex = s.rxIndex := rfl
@[simp] theorem setLine_gpsSnapshot (l : Level) (s : State) : (setLine l s).gpsSnapshot = s.gpsSnapshot := rfl

@[simp] theorem setSlot_params (m : Memory) (len : Nat) (s : State) : (setSlot m len s).params = s.params := rfl
@[simp] theorem setSlot_pending (m : Memory) (len : Nat) (s : State) : (setSlot m len s).pending = s.pending := rfl
@[simp] theorem setSlot_out (m : Memory) (len : Nat) (s : State) : (setSlot m len s).out = s.out := rfl
@[simp] theorem setSlot_line (m : Memory) (len : Nat) (s : State) : (setSlot m len s).line = s.line := rfl
@[simp] theorem setSlot_txBuf (m : Memory) (len : Nat) (s : State) : (setSlot m len s).txBuf = m := rfl
@[simp] theorem setSlot_txLen (m : Memory) (len : Nat) (s : State) : (setSlot m len s).txLen = len := rfl
@[simp] theorem setSlot_txCharIndex (m : Memory) (len : Nat) (s : State) : (setSlot m len s).txCharIndex = s.txCharIndex := rfl
@[simp] theorem setSlot_txBitPhase (m : Memory) (len : Nat) (s : State) : (setSlot m len s).txBitPhase = s.txBitPhase := rfl
@[simp] theorem setSlot_txActive (m : Memory) (len : Nat) (s : State) : (setSlot m len s).txActive = s.txActive := rfl
@[simp] theorem setSlot_crc (m : Memory) (len : Nat) (s : State) : (setSlot m len s).crc = s.crc := rfl
@[simp] theorem setSlot_rxState (m : Memory) (len : Nat) (s : State) : (setSlot m len s).rxState = s.rxState := rfl
@[simp] theorem setSlot_rxCsCount (m : Memory) (len : Nat) (s : State) : (setSlot m len s).rxCsCount = s.rxCsCount := rfl
@[simp] theorem setSlot_rxBuf (m : Memory) (len : Nat) (s : State) : (setSlot m len s).rxBuf = s.rxBuf := rfl
@[simp] theorem setSlot_rxIndex (m : Memory) (len : Nat) (s : State) : (setSlot m len s).rxIndex = s.rxIndex := rfl
@[simp] theorem setSlot_gpsSnapshot (m : Memory) (len : Nat) (s : State) : (setSlot m len s).gpsSnapshot = s.gpsSnapshot := rfl

@[simp] theorem setSequencer_params (active : Bool) (char phase : Nat) (s : State) : (setSequencer active char phase s).params = s.params := rfl
@[simp] theorem setSequencer_pending (active : Bool) (char phase : Nat) (s : State) : (setSequencer active char phase s).pending = s.pending := rfl
@[simp] theorem setSequencer_out (active : Bool) (char phase : Nat) (s : State) : (setSequencer active char phase s).out = s.out := rfl
@[simp] theorem setSequencer_line (active : Bool) (char phase : Nat) (s : State) : (setSequencer active char phase s).line = s.line := rfl
@[simp] theorem setSequencer_txBuf (active : Bool) (char phase : Nat) (s : State) : (setSequencer active char phase s).txBuf = s.txBuf := rfl
@[simp] theorem setSequencer_txLen (active : Bool) (char phase : Nat) (s : State) : (setSequencer active char phase s).txLen = s.txLen := rfl
@[simp] theorem setSequencer_txCharIndex (active : Bool) (char phase : Nat) (s : State) : (setSequencer active char phase s).txCharIndex = char := rfl
@[simp] theorem setSequencer_txBitPhase (active : Bool) (char phase : Nat) (s : State) : (setSequencer active char phase s).txBitPhase = phase := rfl
@[simp] theorem setSequencer_txActive (active : Bool) (char phase : Nat) (s : State) : (setSequencer active char phase s).txActive = active := rfl
@[simp] theorem setSequencer_crc (active : Bool) (char phase : Nat) (s : State) : (setSequencer active char phase s).crc = s.crc := rfl
@[simp] theorem setSequencer_rxState (active : Bool) (char phase : Nat) (s : State) : (setSequencer active char phase s).rxState = s.rxState := rfl
@[simp] theorem setSequencer_rxCsCount (active : Bool) (char phase : Nat) (s : State) : (setSequencer active char phase s).rxCsCount = s.rxCsCount := rfl
@[simp] theorem setSequencer_rxBuf (active : Bool) (char phase : Nat) (s : State) : (setSequencer active char phase s).rxBuf = s.rxBuf := rfl
@[simp] theorem setSequencer_rxIndex (active : Bool) (char phase : Nat) (s : State) : (setSequencer active char phase s).rxIndex = s.rxIndex := rfl
@[simp] theorem setSequencer_gpsSnapshot (active : Bool) (char phase : Nat) (s : State) : (setSequencer active char phase s).gpsSnapshot = s.gpsSnapshot := rfl

@[simp] theorem setCrc_params (c : CrcWord) (s : State) : (setCrc c s).params = s.params := rfl
@[simp] theorem setCrc_pending (c : CrcWord) (s : State) : (setCrc c s).pending = s.pending := rfl
@[simp] theorem setCrc_out (c : CrcWord) (s : State) : (setCrc c s).out = s.out := rfl
@[simp] theorem setCrc_line (c : CrcWord) (s : State) : (setCrc c s).line = s.line := rfl
@[simp] theorem setCrc_txBuf (c : CrcWord) (s : State) : (setCrc c s).txBuf = s.txBuf := rfl
@[simp] theorem setCrc_txLen (c : CrcWord) (s : State) : (setCrc c s).txLen = s.txLen := rfl
@[simp] theorem setCrc_txCharIndex (c : CrcWord) (s : State) : (setCrc c s).txCharIndex = s.txCharIndex := rfl
@[simp] theorem setCrc_txBitPhase (c : CrcWord) (s : State) : (setCrc c s).txBitPhase = s.txBitPhase := rfl
@[simp] theorem setCrc_txActive (c : CrcWord) (s : State) : (setCrc c s).txActive = s.txActive := rfl
@[simp] theorem setCrc_crc (c : CrcWord) (s : State) : (setCrc c s).crc = some c := rfl
@[simp] theorem setCrc_rxState (c : CrcWord) (s : State) : (setCrc c s).rxState = s.rxState := rfl
@[simp] theorem setCrc_rxCsCount (c : CrcWord) (s : State) : (setCrc c s).rxCsCount = s.rxCsCount := rfl
@[simp] theorem setCrc_rxBuf (c : CrcWord) (s : State) : (setCrc c s).rxBuf = s.rxBuf := rfl
@[simp] theorem setCrc_rxIndex (c : CrcWord) (s : State) : (setCrc c s).rxIndex = s.rxIndex := rfl
@[simp] theorem setCrc_gpsSnapshot (c : CrcWord) (s : State) : (setCrc c s).gpsSnapshot = s.gpsSnapshot := rfl

@[simp] theorem setCapture_params (st : RxState) (count : Nat) (s : State) : (setCapture st count s).params = s.params := rfl
@[simp] theorem setCapture_pending (st : RxState) (count : Nat) (s : State) : (setCapture st count s).pending = s.pending := rfl
@[simp] theorem setCapture_out (st : RxState) (count : Nat) (s : State) : (setCapture st count s).out = s.out := rfl
@[simp] theorem setCapture_line (st : RxState) (count : Nat) (s : State) : (setCapture st count s).line = s.line := rfl
@[simp] theorem setCapture_txBuf (st : RxState) (count : Nat) (s : State) : (setCapture st count s).txBuf = s.txBuf := rfl
@[simp] theorem setCapture_txLen (st : RxState) (count : Nat) (s : State) : (setCapture st count s).txLen = s.txLen := rfl
@[simp] theorem setCapture_txCharIndex (st : RxState) (count : Nat) (s : State) : (setCapture st count s).txCharIndex = s.txCharIndex := rfl
@[simp] theorem setCapture_txBitPhase (st : RxState) (count : Nat) (s : State) : (setCapture st count s).txBitPhase = s.txBitPhase := rfl
@[simp] theorem setCapture_txActive (st : RxState) (count : Nat) (s : State) : (setCapture st count s).txActive = s.txActive := rfl
@[simp] theorem setCapture_crc (st : RxState) (count : Nat) (s : State) : (setCapture st count s).crc = s.crc := rfl
@[simp] theorem setCapture_rxState (st : RxState) (count : Nat) (s : State) : (setCapture st count s).rxState = st := rfl
@[simp] theorem setCapture_rxCsCount (st : RxState) (count : Nat) (s : State) : (setCapture st count s).rxCsCount = count := rfl
@[simp] theorem setCapture_rxBuf (st : RxState) (count : Nat) (s : State) : (setCapture st count s).rxBuf = s.rxBuf := rfl
@[simp] theorem setCapture_rxIndex (st : RxState) (count : Nat) (s : State) : (setCapture st count s).rxIndex = s.rxIndex := rfl
@[simp] theorem setCapture_gpsSnapshot (st : RxState) (count : Nat) (s : State) : (setCapture st count s).gpsSnapshot = s.gpsSnapshot := rfl

@[simp] theorem setLineBuffer_params (m : Memory) (index : Nat) (s : State) : (setLineBuffer m index s).params = s.params := rfl
@[simp] theorem setLineBuffer_pending (m : Memory) (index : Nat) (s : State) : (setLineBuffer m index s).pending = s.pending := rfl
@[simp] theorem setLineBuffer_out (m : Memory) (index : Nat) (s : State) : (setLineBuffer m index s).out = s.out := rfl
@[simp] theorem setLineBuffer_line (m : Memory) (index : Nat) (s : State) : (setLineBuffer m index s).line = s.line := rfl
@[simp] theorem setLineBuffer_txBuf (m : Memory) (index : Nat) (s : State) : (setLineBuffer m index s).txBuf = s.txBuf := rfl
@[simp] theorem setLineBuffer_txLen (m : Memory) (index : Nat) (s : State) : (setLineBuffer m index s).txLen = s.txLen := rfl
@[simp] theorem setLineBuffer_txCharIndex (m : Memory) (index : Nat) (s : State) : (setLineBuffer m index s).txCharIndex = s.txCharIndex := rfl
@[simp] theorem setLineBuffer_txBitPhase (m : Memory) (index : Nat) (s : State) : (setLineBuffer m index s).txBitPhase = s.txBitPhase := rfl
@[simp] theorem setLineBuffer_txActive (m : Memory) (index : Nat) (s : State) : (setLineBuffer m index s).txActive = s.txActive := rfl
@[simp] theorem setLineBuffer_crc (m : Memory) (index : Nat) (s : State) : (setLineBuffer m index s).crc = s.crc := rfl
@[simp] theorem setLineBuffer_rxState (m : Memory) (index : Nat) (s : State) : (setLineBuffer m index s).rxState = s.rxState := rfl
@[simp] theorem setLineBuffer_rxCsCount (m : Memory) (index : Nat) (s : State) : (setLineBuffer m index s).rxCsCount = s.rxCsCount := rfl
@[simp] theorem setLineBuffer_rxBuf (m : Memory) (index : Nat) (s : State) : (setLineBuffer m index s).rxBuf = m := rfl
@[simp] theorem setLineBuffer_rxIndex (m : Memory) (index : Nat) (s : State) : (setLineBuffer m index s).rxIndex = index := rfl
@[simp] theorem setLineBuffer_gpsSnapshot (m : Memory) (index : Nat) (s : State) : (setLineBuffer m index s).gpsSnapshot = s.gpsSnapshot := rfl

@[simp] theorem setSnapshot_params (g : Snapshot) (s : State) : (setSnapshot g s).params = s.params := rfl
@[simp] theorem setSnapshot_pending (g : Snapshot) (s : State) : (setSnapshot g s).pending = s.pending := rfl
@[simp] theorem setSnapshot_out (g : Snapshot) (s : State) : (setSnapshot g s).out = s.out := rfl
@[simp] theorem setSnapshot_line (g : Snapshot) (s : State) : (setSnapshot g s).line = s.line := rfl
@[simp] theorem setSnapshot_txBuf (g : Snapshot) (s : State) : (setSnapshot g s).txBuf = s.txBuf := rfl
@[simp] theorem setSnapshot_txLen (g : Snapshot) (s : State) : (setSnapshot g s).txLen = s.txLen := rfl
@[simp] theorem setSnapshot_txCharIndex (g : Snapshot) (s : State) : (setSnapshot g s).txCharIndex = s.txCharIndex := rfl
@[simp] theorem setSnapshot_txBitPhase (g : Snapshot) (s : State) : (setSnapshot g s).txBitPhase = s.txBitPhase := rfl
@[simp] theorem setSnapshot_txActive (g : Snapshot) (s : State) : (setSnapshot g s).txActive = s.txActive := rfl
@[simp] theorem setSnapshot_crc (g : Snapshot) (s : State) : (setSnapshot g s).crc = s.crc := rfl
@[simp] theorem setSnapshot_rxState (g : Snapshot) (s : State) : (setSnapshot g s).rxState = s.rxState := rfl
@[simp] theorem setSnapshot_rxCsCount (g : Snapshot) (s : State) : (setSnapshot g s).rxCsCount = s.rxCsCount := rfl
@[simp] theorem setSnapshot_rxBuf (g : Snapshot) (s : State) : (setSnapshot g s).rxBuf = s.rxBuf := rfl
@[simp] theorem setSnapshot_rxIndex (g : Snapshot) (s : State) : (setSnapshot g s).rxIndex = s.rxIndex := rfl
@[simp] theorem setSnapshot_gpsSnapshot (g : Snapshot) (s : State) : (setSnapshot g s).gpsSnapshot = g := rfl

@[simp] theorem setPending_params (es : List Event) (s : State) : (setPending es s).params = s.params := rfl
@[simp] theorem setPending_pending (es : List Event) (s : State) : (setPending es s).pending = es := rfl
@[simp] theorem setPending_out (es : List Event) (s : State) : (setPending es s).out = s.out := rfl
@[simp] theorem setPending_line (es : List Event) (s : State) : (setPending es s).line = s.line := rfl
@[simp] theorem setPending_txBuf (es : List Event) (s : State) : (setPending es s).txBuf = s.txBuf := rfl
@[simp] theorem setPending_txLen (es : List Event) (s : State) : (setPending es s).txLen = s.txLen := rfl
@[simp] theorem setPending_txCharIndex (es : List Event) (s : State) : (setPending es s).txCharIndex = s.txCharIndex := rfl
@[simp] theorem setPending_txBitPhase (es : List Event) (s : State) : (setPending es s).txBitPhase = s.txBitPhase := rfl
@[simp] theorem setPending_txActive (es : List Event) (s : State) : (setPending es s).txActive = s.txActive := rfl
@[simp] theorem setPending_crc (es : List Event) (s : State) : (setPending es s).crc = s.crc := rfl
@[simp] theorem setPending_rxState (es : List Event) (s : State) : (setPending es s).rxState = s.rxState := rfl
@[simp] theorem setPending_rxCsCount (es : List Event) (s : State) : (setPending es s).rxCsCount = s.rxCsCount := rfl
@[simp] theorem setPending_rxBuf (es : List Event) (s : State) : (setPending es s).rxBuf = s.rxBuf := rfl
@[simp] theorem setPending_rxIndex (es : List Event) (s : State) : (setPending es s).rxIndex = s.rxIndex := rfl
@[simp] theorem setPending_gpsSnapshot (es : List Event) (s : State) : (setPending es s).gpsSnapshot = s.gpsSnapshot := rfl

@[simp] theorem resetBlock_params (s : State) : (resetBlock s).params = s.params := rfl
@[simp] theorem resetBlock_pending (s : State) : (resetBlock s).pending = s.pending := rfl
@[simp] theorem resetBlock_out (s : State) : (resetBlock s).out = s.out := rfl
@[simp] theorem resetBlock_line (s : State) : (resetBlock s).line = s.params.idleLevel := rfl
@[simp] theorem resetBlock_txBuf (s : State) : (resetBlock s).txBuf = [] := rfl
@[simp] theorem resetBlock_txLen (s : State) : (resetBlock s).txLen = 0 := rfl
@[simp] theorem resetBlock_txCharIndex (s : State) : (resetBlock s).txCharIndex = 0 := rfl
@[simp] theorem resetBlock_txBitPhase (s : State) : (resetBlock s).txBitPhase = 0 := rfl
@[simp] theorem resetBlock_txActive (s : State) : (resetBlock s).txActive = false := rfl
@[simp] theorem resetBlock_crc (s : State) : (resetBlock s).crc = none := rfl
@[simp] theorem resetBlock_rxState (s : State) : (resetBlock s).rxState = .awaitStart := rfl
@[simp] theorem resetBlock_rxCsCount (s : State) : (resetBlock s).rxCsCount = 0 := rfl
@[simp] theorem resetBlock_rxBuf (s : State) : (resetBlock s).rxBuf = [] := rfl
@[simp] theorem resetBlock_rxIndex (s : State) : (resetBlock s).rxIndex = 0 := rfl
@[simp] theorem resetBlock_gpsSnapshot (s : State) : (resetBlock s).gpsSnapshot = s.params.snapshotInit := rfl

end Sys2Proof.Machine
end

