-- ==== Sys2Proof/Laws/Exec.lean ====
section
/-! SUPPORT. What each operation can answer, said once: one inversion lemma per meaning, and the meanings as `exec` calls
them. -/

namespace Sys2Proof.Machine

@[simp] theorem charBits_eq : Config.charBits = 8 := rfl
@[simp] theorem bitsPerChar_eq : Config.bitsPerChar = 11 := rfl
@[simp] theorem startMarker_eq : Config.startMarker = 0x24#8 := rfl
@[simp] theorem csMarker_eq : Config.csMarker = 0x2A#8 := rfl

theorem exec_nop (s : State) : exec .nop s = execNop s := rfl
theorem exec_submit (len : Nat) (host : List Byte) (s : State) : exec (.submit len host) s = execSubmit len host s := rfl
theorem exec_tick (s : State) : exec .tick s = execTick s := rfl
theorem exec_crcInit (s : State) : exec .crcInit s = execCrcInit s := rfl
theorem exec_crcByte (b : Byte) (s : State) : exec (.crcByte b) s = execCrcByte b s := rfl
theorem exec_crcRead (s : State) : exec .crcRead s = execCrcRead s := rfl
theorem exec_nmeaRx (b : Byte) (s : State) : exec (.nmeaRx b) s = execNmeaRx b s := rfl
theorem exec_reset (s : State) : exec .reset s = execReset s := rfl

theorem answer_eq (st : Status) (s : State) : answer st s = .next { s with out := statusOutputs st } := rfl

theorem hostRead_eq_some {host : List Byte} {n : Nat} {bytes : List Byte} :
    hostRead host n = some bytes ↔ n ≤ host.length ∧ bytes = host.take n := by
  unfold hostRead
  split
  · rename_i h; simp; omega
  · rename_i h
    constructor
    · intro e; cases e; exact ⟨by omega, rfl⟩
    · rintro ⟨_, rfl⟩; rfl

/-- What SUBMIT can answer with a next state (40_modem.md R90). -/
theorem execSubmit_cases {len : Nat} {host : List Byte} {s t : State} (h : execSubmit len host s = .next t) :
    (s.txActive = true ∧ t = { s with out := statusOutputs .busy }) ∨
    (s.txActive = false ∧ s.params.modemMaxLen < len ∧ t = { s with out := statusOutputs .tooLong }) ∨
    (s.txActive = false ∧ len ≤ s.params.modemMaxLen ∧ 1 ≤ len ∧ len ≤ host.length ∧
      t = { s with txBuf := memStore 0 (host.take len) s.txBuf, txLen := len, txCharIndex := 0, txBitPhase := 0,
                   txActive := true, out := statusOutputs .ok }) := by
  unfold execSubmit at h
  by_cases ha : s.txActive = true
  · rw [if_pos ha] at h
    cases h
    exact .inl ⟨ha, rfl⟩
  · rw [if_neg ha] at h
    have ha' : s.txActive = false := by simpa using ha
    by_cases hl : s.params.modemMaxLen < len
    · rw [if_pos hl] at h
      cases h
      exact .inr (.inl ⟨ha', hl, rfl⟩)
    · rw [if_neg hl] at h
      by_cases h0 : len = 0
      · rw [if_pos h0] at h; cases h
      · rw [if_neg h0] at h
        split at h
        · cases h
        · rename_i bytes hb
          obtain ⟨hlen, rfl⟩ := hostRead_eq_some.mp hb
          cases h
          refine .inr (.inr ⟨ha', by omega, by omega, hlen, ?_⟩)
          simp [loadSlot, setSequencer, setSlot, setOut, Nat.min_eq_left hlen]

/-- The accepted SUBMIT. -/
theorem execSubmit_accepted {len : Nat} {host : List Byte} {s : State} (ha : s.txActive = false)
    (hm : len ≤ s.params.modemMaxLen) (h1 : 1 ≤ len) (hh : len ≤ host.length) :
    execSubmit len host s = .next
      { s with txBuf := memStore 0 (host.take len) s.txBuf, txLen := len, txCharIndex := 0, txBitPhase := 0,
               txActive := true, out := statusOutputs .ok } := by
  unfold execSubmit
  rw [if_neg (by simp [ha]), if_neg (by omega), if_neg (by omega), hostRead_eq_some.mpr ⟨hh, rfl⟩]
  simp [answer, loadSlot, setSequencer, setSlot, setOut, Nat.min_eq_left hh]

/-- A SUBMIT on an occupied slot. -/
theorem execSubmit_busy {len : Nat} {host : List Byte} {s : State} (ha : s.txActive = true) :
    execSubmit len host s = .next { s with out := statusOutputs .busy } := by
  unfold execSubmit
  rw [if_pos ha]; rfl

/-- The advance inside a character. -/
theorem advanceSequencer_bit {s : State} (hp : s.txBitPhase < 10) :
    advanceSequencer s = { s with txBitPhase := s.txBitPhase + 1 } := by
  unfold advanceSequencer
  rw [if_pos (by rw [bitsPerChar_eq]; omega)]; rfl

/-- The advance to the next character. -/
theorem advanceSequencer_char {s : State} (hp : 10 ≤ s.txBitPhase) (hn : s.txCharIndex + 1 < s.txLen) :
    advanceSequencer s = { s with txBitPhase := 0, txCharIndex := s.txCharIndex + 1 } := by
  unfold advanceSequencer
  rw [if_neg (by rw [bitsPerChar_eq]; omega), if_pos hn]; rfl

/-- The advance after the last character. -/
theorem advanceSequencer_last {s : State} (hp : 10 ≤ s.txBitPhase) (hn : s.txLen ≤ s.txCharIndex + 1) :
    advanceSequencer s = { s with txBitPhase := 0, txCharIndex := 0, txActive := false } := by
  unfold advanceSequencer
  rw [if_neg (by rw [bitsPerChar_eq]; omega), if_neg (by omega)]; rfl

/-- What TICK can answer with a next state (40_modem.md R95). -/
theorem execTick_cases {s t : State} (h : execTick s = .next t) :
    (s.txActive = false ∧ t = { s with line := s.params.idleLevel, out := statusOutputs .ok }) ∨
    (s.txActive = true ∧ ∃ c, s.txCharIndex < s.params.modemMaxLen ∧ memLookup s.txBuf s.txCharIndex = some c ∧
      ((s.txBitPhase < 10 ∧
        t = { s with line := drivenLevel c s.txBitPhase s.line, txBitPhase := s.txBitPhase + 1,
                     out := statusOutputs .ok }) ∨
      (10 ≤ s.txBitPhase ∧ s.txCharIndex + 1 < s.txLen ∧
        t = { s with line := drivenLevel c s.txBitPhase s.line, txBitPhase := 0, txCharIndex := s.txCharIndex + 1,
                     out := statusOutputs .ok }) ∨
      (10 ≤ s.txBitPhase ∧ s.txLen ≤ s.txCharIndex + 1 ∧
        t = { s with line := drivenLevel c s.txBitPhase s.line, txBitPhase := 0, txCharIndex := 0, txActive := false,
                     out := statusOutputs .ok }))) := by
  unfold execTick at h
  by_cases ha : s.txActive = true
  · rw [if_pos ha] at h
    split at h
    · cases h
    · rename_i c hc
      obtain ⟨hi, hv⟩ := readByte_ok_iff.mp hc
      refine .inr ⟨ha, c, hi, hv, ?_⟩
      cases h
      by_cases hp : s.txBitPhase < 10
      · exact .inl ⟨hp, by rw [advanceSequencer_bit (s := setLine (drivenLevel c s.txBitPhase s.line) s) hp]; rfl⟩
      · have hp' : 10 ≤ (setLine (drivenLevel c s.txBitPhase s.line) s).txBitPhase := Nat.not_lt.mp hp
        by_cases hn : s.txCharIndex + 1 < s.txLen
        · exact .inr (.inl ⟨by omega, hn, by rw [advanceSequencer_char hp' hn]; rfl⟩)
        · exact .inr (.inr ⟨by omega, by omega, by rw [advanceSequencer_last hp' (Nat.not_lt.mp hn)]; rfl⟩)
  · rw [if_neg ha] at h
    cases h
    exact .inl ⟨by simpa using ha, rfl⟩

/-- TICK answers a next state wherever the current character exists. -/
theorem execTick_next {s : State} (h : s.txActive = true → s.txCharIndex < s.params.modemMaxLen ∧
    (memLookup s.txBuf s.txCharIndex).isSome = true) : ∃ t, execTick s = .next t := by
  unfold execTick
  by_cases ha : s.txActive = true
  · obtain ⟨hi, hv⟩ := h ha
    obtain ⟨c, hc⟩ := Option.isSome_iff_exists.mp hv
    rw [if_pos ha, (readByte_ok_iff (sp := .tx)).mpr ⟨hi, hc⟩]
    exact ⟨_, rfl⟩
  · rw [if_neg ha]
    exact ⟨_, rfl⟩

/-- The driven level is the bit of the frame that the phase names (30_encoding.md R67). -/
theorem drivenLevel_eq_frame (c : Byte) {p : Nat} (hp : p ≤ 10) (held : Level) :
    (charFrame c)[p]? = some (drivenLevel c p held) := by
  have : p ∈ [0, 1, 2, 3, 4, 5, 6, 7, 8, 9, 10] := by simp; omega
  fin_cases this <;> rfl

/-- What CRC_BYTE can answer with a next state (41_checksum.md R111). -/
theorem execCrcByte_cases {b : Byte} {s t : State} (h : execCrcByte b s = .next t) :
    ∃ c, s.crc = some c ∧ t = { s with crc := some (crcStep c b), out := statusOutputs .ok } := by
  unfold execCrcByte at h
  split at h
  · cases h
  · rename_i c hc
    cases h
    exact ⟨c, hc, rfl⟩

/-- What CRC_READ can answer with a next state (41_checksum.md R112). -/
theorem execCrcRead_cases {s t : State} (h : execCrcRead s = .next t) :
    ∃ c, s.crc = some c ∧ t = { s with out := { status := .ok, dout := c, dispatch := none } } := by
  unfold execCrcRead at h
  split at h
  · cases h
  · rename_i c hc
    cases h
    exact ⟨c, hc, rfl⟩

/-- `append` stores at `appendIndex` and advances, where that index exists (42_nmea.md R135). -/
theorem appendByte_ok_iff {b : Byte} {s t : State} :
    appendByte b s = .ok t ↔ appendIndex s < s.params.nmeaBufLen ∧
      t = { s with rxBuf := memStore (appendIndex s) [b] s.rxBuf, rxIndex := appendIndex s + 1 } := by
  unfold appendByte
  by_cases h : appendIndex s < spaceSize s .rx
  · have h' : appendIndex s < s.params.nmeaBufLen := h
    rw [if_pos h]
    constructor
    · intro e; cases e; exact ⟨h', rfl⟩
    · rintro ⟨_, rfl⟩; rfl
  · have h' : ¬ appendIndex s < s.params.nmeaBufLen := h
    rw [if_neg h]
    simp [h']

/-- What the dispatch can answer with a next state (42_nmea.md R138). -/
theorem dispatchLine_cases {s t : State} (h : dispatchLine s = .next t) :
    ∃ l, l.length = s.rxIndex ∧ (∀ i, i < s.rxIndex → l[i]? = memLookup s.rxBuf i) ∧
      t = { s with
        rxState := .awaitStart, rxCsCount := 0
        gpsSnapshot := if validate s.params.nmeaHexLowerOk l then gpsUpdate s.gpsSnapshot l else s.gpsSnapshot
        out := { status := .ok, dout := 0#16, dispatch := some (l, validate s.params.nmeaHexLowerOk l) } } := by
  unfold dispatchLine at h
  split at h
  · cases h
  · rename_i l hl
    obtain ⟨hn, hi⟩ := readBytes_ok_spec hl
    refine ⟨l, hn, fun i h => by simpa [spaceContent] using hi i h, ?_⟩
    split at h
    · rename_i hv
      cases h
      simp [hv, setOut, setCapture, setSnapshot]
    · rename_i hv
      cases h
      simp [hv, setOut, setCapture]

/-- The dispatch answers a next state wherever the captured line is whole. -/
theorem dispatchLine_next {s : State} (hs : s.rxIndex ≤ s.params.nmeaBufLen)
    (hv : ∀ i, i < s.rxIndex → (memLookup s.rxBuf i).isSome = true) : ∃ t, dispatchLine s = .next t := by
  obtain ⟨l, hl, -⟩ := readBytes_ok (sp := .rx) (a := 0) (n := s.rxIndex) (s := s)
    (by simpa [spaceSize] using hs) (fun i h => by simpa [spaceContent] using hv i h)
  unfold dispatchLine
  rw [hl]
  dsimp only
  split <;> exact ⟨_, rfl⟩

/-- Where a byte taken in CAPTURING or IN_CHECKSUM is stored (42_nmea.md R135). -/
theorem appendIndex_eq (s : State) : appendIndex s = if s.rxIndex = s.params.nmeaBufLen then 0 else s.rxIndex := rfl

/-- What NMEA_RX can answer with a next state (42_nmea.md R130): the byte is dropped, begins a capture, is stored, begins
the window, is the first of the window, or is the second and dispatches. -/
theorem execNmeaRx_cases {b : Byte} {s t : State} (h : execNmeaRx b s = .next t) :
    (b ≠ 0x24#8 ∧ s.rxState = .awaitStart ∧ t = { s with out := statusOutputs .ok }) ∨
    (b = 0x24#8 ∧ 0 < s.params.nmeaBufLen ∧
      t = { s with rxBuf := memStore 0 [b] s.rxBuf, rxIndex := 1, rxState := .capturing, rxCsCount := 0,
                   out := statusOutputs .ok }) ∨
    (b ≠ 0x24#8 ∧ s.rxState = .capturing ∧ appendIndex s < s.params.nmeaBufLen ∧
      ((b ≠ 0x2A#8 ∧
        t = { s with rxBuf := memStore (appendIndex s) [b] s.rxBuf, rxIndex := appendIndex s + 1,
                     out := statusOutputs .ok }) ∨
      (b = 0x2A#8 ∧
        t = { s with rxBuf := memStore (appendIndex s) [b] s.rxBuf, rxIndex := appendIndex s + 1,
                     rxState := .inChecksum, rxCsCount := 0, out := statusOutputs .ok }))) ∨
    (b ≠ 0x24#8 ∧ s.rxState = .inChecksum ∧ appendIndex s < s.params.nmeaBufLen ∧
      ((s.rxCsCount = 0 ∧
        t = { s with rxBuf := memStore (appendIndex s) [b] s.rxBuf, rxIndex := appendIndex s + 1,
                     rxState := .inChecksum, rxCsCount := 1, out := statusOutputs .ok }) ∨
      (s.rxCsCount ≠ 0 ∧ ∃ l, l.length = appendIndex s + 1 ∧
        (∀ i, i < appendIndex s + 1 → l[i]? = memLookup (memStore (appendIndex s) [b] s.rxBuf) i) ∧
        t = { s with
          rxBuf := memStore (appendIndex s) [b] s.rxBuf, rxIndex := appendIndex s + 1
          rxState := .awaitStart, rxCsCount := 0
          gpsSnapshot := if validate s.params.nmeaHexLowerOk l then gpsUpdate s.gpsSnapshot l else s.gpsSnapshot
          out := { status := .ok, dout := 0#16, dispatch := some (l, validate s.params.nmeaHexLowerOk l) } }))) := by
  unfold execNmeaRx at h
  rw [startMarker_eq] at h
  by_cases hb : b = 0x24#8
  · rw [if_pos hb] at h
    unfold takeStart at h
    split at h
    · cases h
    · rename_i s' hs'
      obtain ⟨hi, rfl⟩ := appendByte_ok_iff.mp hs'
      have h0 : appendIndex (setCapture .capturing 0 (setLineBuffer s.rxBuf 0 s)) = 0 := by
        unfold appendIndex; split <;> rfl
      cases h
      rw [h0] at hi
      refine .inr (.inl ⟨hb, hi, ?_⟩)
      rw [h0]; rfl
  · rw [if_neg hb] at h
    split at h
    · rename_i hst
      cases h
      exact .inl ⟨hb, hst, rfl⟩
    · rename_i hst
      unfold takeBody at h
      split at h
      · cases h
      · rename_i s' hs'
        obtain ⟨hi, rfl⟩ := appendByte_ok_iff.mp hs'
        refine .inr (.inr (.inl ⟨hb, hst, hi, ?_⟩))
        split at h
        · rename_i hc
          cases h
          exact .inr ⟨hc, rfl⟩
        · rename_i hc
          cases h
          exact .inl ⟨hc, rfl⟩
    · rename_i hst
      unfold takeWindow at h
      split at h
      · cases h
      · rename_i s' hs'
        obtain ⟨hi, rfl⟩ := appendByte_ok_iff.mp hs'
        refine .inr (.inr (.inr ⟨hb, hst, hi, ?_⟩))
        split at h
        · rename_i hc
          cases h
          exact .inl ⟨hc, rfl⟩
        · rename_i hc
          obtain ⟨l, hn, hl, rfl⟩ := dispatchLine_cases h
          exact .inr ⟨hc, l, hn, hl, rfl⟩

/-- NMEA_RX answers a next state in every state that meets the invariants of the buffers and of unit B. -/
theorem execNmeaRx_next (b : Byte) {s : State} (hp : ParamsOk s) (hr : IngestOk s) :
    ∃ t, execNmeaRx b s = .next t := by
  have hpos : 0 < s.params.nmeaBufLen := hp.2.2
  have hai : appendIndex s < s.params.nmeaBufLen := by
    have := hr.1
    rw [appendIndex_eq]; split <;> omega
  unfold execNmeaRx
  split
  · have h0 : appendIndex (setCapture .capturing 0 (setLineBuffer s.rxBuf 0 s)) = 0 := by
      unfold appendIndex; split <;> rfl
    unfold takeStart
    rw [appendByte_ok_iff.mpr ⟨by rw [h0]; exact hpos, rfl⟩]
    exact ⟨_, rfl⟩
  · split
    · exact ⟨_, rfl⟩
    · unfold takeBody
      rw [appendByte_ok_iff.mpr ⟨hai, rfl⟩]
      dsimp only
      split <;> exact ⟨_, rfl⟩
    · unfold takeWindow
      rw [appendByte_ok_iff.mpr ⟨hai, rfl⟩]
      dsimp only
      split
      · exact ⟨_, rfl⟩
      · refine dispatchLine_next (by simp only; omega) (fun i hi => ?_)
        simp only at hi ⊢
        rw [memLookup_memStore_one]
        split
        · rfl
        · rename_i hne
          refine hr.2.1 i ?_
          rw [appendIndex_eq] at hi hne
          split at hi
          · omega
          · rename_i hf
            rw [if_neg hf] at hne
            omega

end Sys2Proof.Machine
end

