-- ==== Sys2Proof/Laws/PerInstr.lean ====
section
/-! SUPPORT. Statements made of every operation as syntax, one lemma per constructor. -/

namespace Sys2Proof.Laws

/-- The rows of the printed table that a word of the format `op ++ arg` can be of are the rows with that `op`. -/
theorem opField_eq_of_covers {w : CommandWord} {r : OpcodeRow} (hr : r ∈ opcodeTable) (h : r.covers w = true) :
    opField w = opField r.word := by
  have hm : r.mask.extractLsb' 12 4 = 0xF#4 := by
    have key : ∀ r ∈ opcodeTable, r.mask.extractLsb' 12 4 = 0xF#4 := by decide
    exact key r hr
  have hw : w &&& r.mask = r.word := by simpa [OpcodeRow.covers] using h
  have hx : (w &&& r.mask).extractLsb' 12 4 = w.extractLsb' 12 4 := by
    rw [BitVec.extractLsb'_and, hm]
    exact BitVec.and_allOnes
  unfold opField
  rw [← hw, hx]

/-- Two rows of the table with the same `op` are the same row. -/
theorem row_unique_of_opField {r q : OpcodeRow} (hr : r ∈ opcodeTable) (hq : q ∈ opcodeTable)
    (h : opField r.word = opField q.word) : r = q := by
  have key : ∀ r ∈ opcodeTable, ∀ q ∈ opcodeTable, opField r.word = opField q.word → r = q := by decide
  exact key r hr q hq h

/-- A word that one row covers is covered by that row alone. -/
theorem covers_iff_of_covers {w : CommandWord} {q : OpcodeRow} (hq : q ∈ opcodeTable) (h : q.covers w = true) :
    ∀ r ∈ opcodeTable, (r.covers w = true ↔ r.mnemonic = q.mnemonic) := by
  intro r hr
  constructor
  · intro hc
    rw [row_unique_of_opField hr hq ((opField_eq_of_covers hr hc).symm.trans (opField_eq_of_covers hq h))]
  · intro hm
    have key : ∀ r ∈ opcodeTable, ∀ q ∈ opcodeTable, r.mnemonic = q.mnemonic → r = q := by decide
    rw [key r hr q hq hm]
    exact h

/-- A format L word is covered by its row (30_encoding.md R61). -/
theorem covers_formatL (op : BitVec 4) (a : BitVec 12) : (op ++ a) &&& 0xF000#16 = op ++ 0#12 := by
  have hm : (0xF000#16 : CommandWord) = 0xF#4 ++ 0#12 := by decide
  rw [hm, BitVec.and_append, BitVec.and_zero]
  exact congrArg (· ++ 0#12) BitVec.and_allOnes

/-- A format B word is covered by its row (30_encoding.md R61). -/
theorem covers_formatB (op : BitVec 4) (d : Byte) : (op ++ 0#4 ++ d) &&& 0xFF00#16 = op ++ 0#4 ++ 0#8 := by
  have hm : (0xFF00#16 : CommandWord) = 0xFF#8 ++ 0#8 := by decide
  rw [hm, BitVec.and_append, BitVec.and_zero]
  exact congrArg (· ++ 0#8) BitVec.and_allOnes

/-- The word of a well-formed operation is of exactly the rows of the printed table that bear the operation's mnemonic
(30_encoding.md R62, R63). -/
def RowMatch.Statement (i : Instr) : Prop :=
  i.wellFormed = true → ∀ r ∈ opcodeTable, (r.covers (encode i) = true ↔ r.mnemonic = i.mnemonic)

theorem RowMatch.nop : RowMatch.Statement .nop := fun _ =>
  covers_iff_of_covers (q := ⟨"NOP", 0x0000#16, 0xFFFF#16⟩) (by decide) (by decide)

theorem RowMatch.submit (len : Nat) (host : List Byte) : RowMatch.Statement (.submit len host) := fun _ =>
  covers_iff_of_covers (q := ⟨"SUBMIT", 0x1000#16, 0xF000#16⟩) (by decide)
    (beq_iff_eq.mpr (covers_formatL 0x1#4 (BitVec.ofNat 12 len)))

theorem RowMatch.tick : RowMatch.Statement .tick := fun _ =>
  covers_iff_of_covers (q := ⟨"TICK", 0x2000#16, 0xFFFF#16⟩) (by decide) (by decide)

theorem RowMatch.crcInit : RowMatch.Statement .crcInit := fun _ =>
  covers_iff_of_covers (q := ⟨"CRC_INIT", 0x3000#16, 0xFFFF#16⟩) (by decide) (by decide)

theorem RowMatch.crcByte (data : Byte) : RowMatch.Statement (.crcByte data) := fun _ =>
  covers_iff_of_covers (q := ⟨"CRC_BYTE", 0x4000#16, 0xFF00#16⟩) (by decide)
    (beq_iff_eq.mpr (covers_formatB 0x4#4 data))

theorem RowMatch.crcRead : RowMatch.Statement .crcRead := fun _ =>
  covers_iff_of_covers (q := ⟨"CRC_READ", 0x5000#16, 0xFFFF#16⟩) (by decide) (by decide)

theorem RowMatch.nmeaRx (data : Byte) : RowMatch.Statement (.nmeaRx data) := fun _ =>
  covers_iff_of_covers (q := ⟨"NMEA_RX", 0x6000#16, 0xFF00#16⟩) (by decide)
    (beq_iff_eq.mpr (covers_formatB 0x6#4 data))

theorem RowMatch.reset : RowMatch.Statement .reset := fun _ =>
  covers_iff_of_covers (q := ⟨"RESET", 0xF000#16, 0xFFFF#16⟩) (by decide) (by decide)

end Sys2Proof.Laws
end

