-- ==== Sys2Proof/Laws/Sentence.lean ====
section
/-! SUPPORT. The parts of a telemetry sentence that stands rendered as `$$`, a body, `*`, four digits and a newline. -/

namespace Sys2Proof.Machine

@[simp] theorem preamble_eq : preamble = [0x24#8, 0x24#8] := rfl

@[simp] theorem hex4_length (c : CrcWord) : (hex4 c).length = 4 := rfl

@[simp] theorem checksumSuffix_length (c : CrcWord) : (checksumSuffix c).length = 6 := rfl

@[simp] theorem sentencePrefix_length (body : List Byte) : (sentencePrefix body).length = body.length + 2 := by
  simp [sentencePrefix]

theorem checksumSuffix_eq (c : CrcWord) : checksumSuffix c = [0x2A#8] ++ hex4 c ++ [0x0A#8] := rfl

/-- The uppercase hexadecimal digits are the values of `hexDigit` (30_encoding.md R74). -/
theorem isUpperDigit_iff (b : Byte) : isUpperDigit b = true ↔ ∃ n, n < 16 ∧ b = hexDigit n := by
  have key : ∀ b : Byte, isUpperDigit b = true ↔ ∃ n : Fin 16, b = hexDigit n := by decide +kernel
  rw [key b]
  exact ⟨fun ⟨n, e⟩ => ⟨n, n.2, e⟩, fun ⟨n, h, e⟩ => ⟨⟨n, h⟩, e⟩⟩

/-- Every byte that `hex4` writes is an uppercase hexadecimal digit (41_checksum.md R115). -/
theorem isUpperDigit_of_mem_hex4 {c : CrcWord} {d : Byte} (hd : d ∈ hex4 c) : isUpperDigit d = true := by
  simp only [hex4, List.mem_cons, List.not_mem_nil, or_false] at hd
  rcases hd with rfl | rfl | rfl | rfl <;> exact (isUpperDigit_iff _).mpr ⟨_, BitVec.isLt _, rfl⟩

/-- The covered bytes of a rendered sentence are its body (30_encoding.md R70). -/
theorem coveredBytes_rendered {pre body tail : List Byte} (hp : pre.length = 2) (ht : tail.length = 6) :
    coveredBytes (pre ++ body ++ tail) = body := by
  have hn : (pre ++ body ++ tail).length - 6 = (pre ++ body).length := by
    simp only [List.length_append, ht]
    omega
  unfold coveredBytes
  rw [hn, List.take_left, ← hp, List.drop_left]

/-- The digits of a rendered sentence (30_encoding.md R70). -/
theorem sentenceDigits_rendered {front digits : List Byte} {last : Byte} (hd : digits.length = 4) :
    sentenceDigits (front ++ digits ++ [last]) = digits := by
  have hn : (front ++ digits ++ [last]).length - 5 = front.length := by
    simp only [List.length_append, List.length_singleton, hd]
    omega
  unfold sentenceDigits
  rw [hn, List.append_assoc, List.drop_left, ← hd, List.take_left]

/-- When sealing answers a sentence, and which (41_checksum.md R118). -/
theorem sealSentence_eq_some {body sentence : List Byte} {cap : Nat} :
    sealSentence body cap = some sentence ↔
      body.length + 8 ≤ cap ∧ sentence = sentencePrefix body ++ checksumSuffix (crc16 body) := by
  unfold sealSentence
  rw [sentencePrefix_length]
  split
  · simp only [reduceCtorEq, false_iff]
    omega
  · simp only [Option.some.injEq]
    exact ⟨fun h => ⟨by omega, h.symm⟩, fun h => h.2.symm⟩

end Sys2Proof.Machine
end

