-- ==== Sys2Proof/Tests/Slice0.lean ====
section
/-! SUPPORT. Tests: the expected results are the words of 30_encoding.md R62 written out bit by bit, and the vectors of
95_test_vectors.md named in each comment. Then, for every statement that has hypotheses, a witness that meets them. -/

namespace Sys2Proof.Tests

open Sys2Proof Sys2Proof.Machine

/-! ### Helpers -/

/-- The reset state with the two sizes that a vector names. -/
def sized (maxLen bufLen : Nat) : State :=
  { State.reset with params := { Config.defaultParams with modemMaxLen := maxLen, nmeaBufLen := bufLen } }

/-- Two characters are being sent, `Hi`; the sequencer stands at the given place. -/
def sending (char phase : Nat) : State :=
  { sized 8 6 with
    txBuf := [(0, 0x48#8), (1, 0x69#8)], txLen := 2, txCharIndex := char, txBitPhase := phase, txActive := true }

/-- Capture in progress: the given bytes are in the line buffer. -/
def capturing (bufLen : Nat) (st : RxState) (count : Nat) (bytes : List Byte) : State :=
  { sized 8 bufLen with rxState := st, rxCsCount := count, rxBuf := memCells 0 bytes, rxIndex := bytes.length }

/-- The CRC register holds a value. -/
def withCrc (c : CrcWord) : State := { sized 8 6 with crc := some c }

/-- The state that an answer leaves, the reset state where it leaves none. -/
def after : Answer → State
  | .next s => s
  | _ => State.reset

/-- The outputs of an answer, none where the machine stopped. -/
def outs : Answer → Option Outputs
  | .next s => some s.out
  | _ => none

/-- Whether an answer is a next state. -/
def isNext : Answer → Bool
  | .next _ => true
  | _ => false

/-- Whether an answer is the given refusal. -/
def refuses (r : Refusal) : Answer → Bool
  | .refused q => q == r
  | _ => false

theorem next_of_isNext {a : Answer} (h : isNext a = true) : a = .next (after a) := by
  cases a with
  | next s => rfl
  | fault f => cases h
  | refused r => cases h

/-! ### Well-formedness and decoding -/

/-- A length above the twelve bits of format L is ill-formed, the greatest length is not. -/
theorem test_wellFormed_submit : (Instr.submit 4096 []).wellFormed = false ∧ (Instr.submit 4095 []).wellFormed = true := by
  decide

theorem test_decode_nop : decode 0b0000000000000000#16 [] = .operation .nop := by decide
theorem test_decode_submit : decode 0b0001000000001011#16 [0x48#8] = .operation (.submit 11 [0x48#8]) := by decide
theorem test_decode_tick : decode 0b0010000000000000#16 [] = .operation .tick := by decide
theorem test_decode_crcInit : decode 0b0011000000000000#16 [] = .operation .crcInit := by decide
theorem test_decode_crcByte : decode 0b0100000000110001#16 [] = .operation (.crcByte 0b00110001#8) := by decide
theorem test_decode_crcRead : decode 0b0101000000000000#16 [] = .operation .crcRead := by decide
theorem test_decode_nmeaRx : decode 0b0110000010101010#16 [] = .operation (.nmeaRx 0b10101010#8) := by decide
theorem test_decode_reset : decode 0b1111000000000000#16 [] = .operation .reset := by decide

/-- V-D28. -/
theorem test_decode_reserved :
    (decode 0x0001#16 [] = .reserved .formatZArgument ∧ decode 0x3FFF#16 [] = .reserved .formatZArgument ∧
      decode 0xFFFF#16 [] = .reserved .formatZArgument ∧ decode 0x6100#16 [] = .reserved .formatBArgument ∧
      decode 0x7000#16 [] = .reserved .opcode ∧ decode 0xE123#16 [] = .reserved .opcode) ∧
    decodeTableWord 16 0x2001 = none ∧ decodeTableWord 16 0x4131 = none ∧ decodeTableWord 16 0xF001 = none := by decide

/-- No word is of two rows of the table: two rows differ in a bit that both masks hold. -/
theorem test_rows_disjoint :
    opcodeTable.Pairwise fun r q => (r.word &&& (r.mask &&& q.mask)) ≠ (q.word &&& (r.mask &&& q.mask)) := by decide

/-- An opcode-table word is fetched and run as the first step after reset: SUBMIT 1 with a zero byte, and V-S5 step 1. -/
theorem test_withFetchWord :
    (after (step (State.reset.withFetchWord 16 0x1001))).txBuf = [(0, 0x00#8)] ∧
    (after (step (State.reset.withFetchWord 16 0x6024))).rxBuf = [(0, 0x24#8)] := by decide

/-! ### The operations, one step each -/

/-- V-D31. -/
theorem test_nop : (after (exec .nop (sending 0 5))).txBitPhase = 5 := by decide

/-- V-D5, V-D6: TOO_LONG at the boundary, BUSY before TOO_LONG. -/
theorem test_submit_status :
    outs (exec (.submit 9 (List.replicate 9 0x31#8)) (sized 8 6)) = some (statusOutputs .tooLong) ∧
    outs (exec (.submit 8 (List.replicate 8 0x31#8)) (sized 8 6)) = some (statusOutputs .ok) ∧
    outs (exec (.submit 9 (List.replicate 9 0x31#8)) (sending 0 5)) = some (statusOutputs .busy) := by decide +kernel

/-- V-D9: the refused submissions, and the tests that come before the refusals. -/
theorem test_submit_refused :
    refuses .submitEmpty (exec (.submit 0 []) (sized 8 6)) = true ∧
    refuses .submitShortHost (exec (.submit 2 [0x41#8]) (sized 8 6)) = true ∧
    outs (exec (.submit 0 []) (sending 0 5)) = some (statusOutputs .busy) ∧
    outs (exec (.submit 2 [0x41#8]) (sized 1 6)) = some (statusOutputs .tooLong) := by decide

/-- V-D3, tick 5 of `Hi`: data bit 3 of 0x48 is driven. V-D3, tick 11: the second stop bit, then the next character. -/
theorem test_tick_bits :
    (after (exec .tick (sending 0 4))).line = true ∧ (after (exec .tick (sending 0 3))).line = false ∧
    (after (exec .tick (sending 0 10))).txCharIndex = 1 ∧ (after (exec .tick (sending 0 10))).txBitPhase = 0 := by decide

/-- V-D3, tick 22: the last stop bit frees the slot. -/
theorem test_tick_last :
    (after (exec .tick (sending 1 10))).txActive = false ∧ (after (exec .tick (sending 1 10))).line = true ∧
    (after (exec .tick (sending 1 10))).txCharIndex = 0 ∧ (after (exec .tick (sending 1 9))).txActive = true := by decide

/-- V-D19. -/
theorem test_crcInit : (after (exec .crcInit State.reset)).crc = some 0xFFFF#16 := by decide

/-- V-D11: rows 1, 4 and 5; V-D19: refused before CRC_INIT. -/
theorem test_crcByte :
    (after (exec (.crcByte 0x41#8) (withCrc 0xFFFF#16))).crc = some 0xB915#16 ∧
    (after (exec (.crcByte 0x01#8) (withCrc 0x0000#16))).crc = some 0x1021#16 ∧
    (after (exec (.crcByte 0x80#8) (withCrc 0x0000#16))).crc = some 0x9188#16 ∧
    refuses .crcNoValue (exec (.crcByte 0x41#8) State.reset) = true := by decide

/-- V-D13, V-D19. -/
theorem test_crcRead :
    outs (exec .crcRead (withCrc 0x29B1#16)) = some { status := .ok, dout := 0x29B1#16, dispatch := none } ∧
    refuses .crcNoValue (exec .crcRead State.reset) = true := by decide

/-- V-D12, V-D16, V-D17, V-D18, V-D20. -/
theorem test_checksum_functions :
    crc16 [0x31#8, 0x32#8, 0x33#8, 0x34#8, 0x35#8, 0x36#8, 0x37#8, 0x38#8, 0x39#8] = 0x29B1#16 ∧ crc16 [0xFF#8, 0xFF#8] = 0x0000#16 ∧
    hex4 0x00AB#16 = [0x30#8, 0x30#8, 0x41#8, 0x42#8] ∧ xor8 [0x47#8, 0x50#8, 0x47#8, 0x47#8, 0x41#8] = 0x56#8 ∧
    sealSentence [0x41#8, 0x2C#8, 0x31#8] 11 =
      some [0x24#8, 0x24#8, 0x41#8, 0x2C#8, 0x31#8, 0x2A#8, 0x38#8, 0x33#8, 0x46#8, 0x38#8, 0x0A#8] ∧
    sealSentence [0x41#8, 0x2C#8, 0x31#8] 10 = none := by decide +kernel

/-- V-D17: the receiver accepts `$$A,1*83F8` and rejects `$$A,2*83F8`; 30_encoding.md R70: six bytes of suffix alone are no
sentence, and neither is a sentence without its preamble. -/
theorem test_receiverCheck :
    receiverCheck [0x24#8, 0x24#8, 0x41#8, 0x2C#8, 0x31#8, 0x2A#8, 0x38#8, 0x33#8, 0x46#8, 0x38#8, 0x0A#8] = true ∧
    receiverCheck [0x24#8, 0x24#8, 0x41#8, 0x2C#8, 0x32#8, 0x2A#8, 0x38#8, 0x33#8, 0x46#8, 0x38#8, 0x0A#8] = false ∧
    receiverCheck [0x2A#8, 0x46#8, 0x46#8, 0x46#8, 0x46#8, 0x0A#8] = false ∧
    receiverCheck [0x24#8, 0x41#8, 0x2A#8, 0x46#8, 0x46#8, 0x46#8, 0x46#8, 0x0A#8] = false := by decide +kernel

/-- V-D21, rows `$AB*03` and `$A*14`, their dispatching steps. -/
theorem test_nmeaRx_dispatch :
    outs (exec (.nmeaRx 0x33#8) (capturing 6 .inChecksum 1 [0x24#8, 0x41#8, 0x42#8, 0x2A#8, 0x30#8])) =
      some { status := .ok, dout := 0#16,
             dispatch := some ([0x24#8, 0x41#8, 0x42#8, 0x2A#8, 0x30#8, 0x33#8], true) } ∧
    outs (exec (.nmeaRx 0x34#8) (capturing 6 .inChecksum 1 [0x24#8, 0x41#8, 0x2A#8, 0x31#8])) =
      some { status := .ok, dout := 0#16, dispatch := some ([0x24#8, 0x41#8, 0x2A#8, 0x31#8, 0x34#8], false) } := by
  decide

/-- P7 steps 7 and 8: the wrap inside the dispatching step, and the start marker after it. -/
theorem test_nmeaRx_wrap :
    outs (exec (.nmeaRx 0x33#8) (capturing 5 .inChecksum 1 [0x24#8, 0x41#8, 0x42#8, 0x2A#8, 0x30#8])) =
      some { status := .ok, dout := 0#16, dispatch := some ([0x33#8], false) } ∧
    (after (exec (.nmeaRx 0x24#8) (capturing 5 .inChecksum 1 [0x24#8, 0x41#8, 0x42#8, 0x2A#8, 0x30#8]))).rxState =
      .capturing := by decide

/-- V-D21 and V-D22 by `validate`: an empty body, lowercase digits, a byte above 0x7F, a digit that is none. -/
theorem test_validate :
    validate false [0x24#8, 0x2A#8, 0x30#8, 0x30#8] = true ∧
    validate false [0x24#8, 0x4A#8, 0x2A#8, 0x34#8, 0x61#8] = false ∧
    validate true [0x24#8, 0x4A#8, 0x2A#8, 0x34#8, 0x61#8] = true ∧
    validate false [0x24#8, 0xC1#8, 0x2A#8, 0x43#8, 0x31#8] = true ∧
    validate false [0x24#8, 0x41#8, 0x2A#8, 0x34#8, 0x47#8] = false := by decide

/-- V-D30: RESET in mid-transmission, after a CRC_INIT. -/
theorem test_reset :
    (after (exec .reset { sending 0 5 with crc := some 0xFFFF#16 })).txActive = false ∧
    (after (exec .reset { sending 0 5 with crc := some 0xFFFF#16 })).crc = none ∧
    (after (exec .reset { sending 0 5 with line := false })).line = true := by decide

/-- P6 steps 5 and 7: a reserved word does nothing but report itself. -/
theorem test_reserved :
    step { sending 0 1 with pending := [⟨false, 0x2001#16, []⟩] } =
      .next { sending 0 1 with out := statusOutputs .illegal } := rfl

/-! ### Witnesses: a concrete state and operands for the hypotheses of each statement -/

theorem witness_DecodeOfEncodeIsTheOperation :
    (Instr.submit 0 []).wellFormed = true ∧ (Instr.submit 4095 []).wellFormed = true := by decide

theorem witness_EncodeOfDecodeIsTheWord :
    decode 0x1FFF#16 [0x41#8] = .operation (.submit 4095 [0x41#8]) ∧ decode 0x40FF#16 [] = .operation (.crcByte 0xFF#8) := by
  decide

/-- Words at the bounds of the clauses: each format B operation at its last word, SUBMIT at both ends, a reserved word. -/
theorem witness_DecodeByFields :
    (0x40FF / 4096 = 4 ∧ 0x40FF % 4096 / 256 = 0) ∧ (0x60FF / 4096 = 6 ∧ 0x60FF % 4096 / 256 = 0) ∧ 0x1000 / 4096 = 1 ∧
    0x1FFF / 4096 = 1 ∧ (0xF000 / 4096 = 15 ∧ 0xF000 % 4096 = 0) ∧ 0x7000 / 4096 ≠ 15 := by decide

theorem witness_DecoderFollowsThePrintedTable :
    (⟨"SUBMIT", 0x1000#16, 0xF000#16⟩ : OpcodeRow) ∈ opcodeTable ∧
    (⟨"SUBMIT", 0x1000#16, 0xF000#16⟩ : OpcodeRow).covers 0x1FFF#16 = true ∧
    decode 0x1FFF#16 [] = .operation (.submit 4095 []) := by decide

/-- Clauses at their bounds: 0x7000 and 0xEFFF by the opcode, 0x0001 and 0xF001 by a format Z argument, 0x4100 and 0x6FFF
by the high bits of a format B argument are reserved; 0x60FF and 0x1FFF are not. -/
theorem witness_ReservedWordsAnswerIllegal :
    (∀ w ∈ [0x7000, 0xEFFF, 0x0001, 0xF001, 0x4100, 0x6FFF], (7 ≤ w / 4096 ∧ w / 4096 ≤ 14) ∨
      ((w / 4096 = 0 ∨ w / 4096 = 2 ∨ w / 4096 = 3 ∨ w / 4096 = 5 ∨ w / 4096 = 15) ∧ w % 4096 ≠ 0) ∨
      ((w / 4096 = 4 ∨ w / 4096 = 6) ∧ w / 256 % 16 ≠ 0)) ∧
    (∀ w ∈ [0x60FF, 0x1FFF], ¬ ((7 ≤ w / 4096 ∧ w / 4096 ≤ 14) ∨
      ((w / 4096 = 0 ∨ w / 4096 = 2 ∨ w / 4096 = 3 ∨ w / 4096 = 5 ∨ w / 4096 = 15) ∧ w % 4096 ≠ 0) ∨
      ((w / 4096 = 4 ∨ w / 4096 = 6) ∧ w / 256 % 16 ≠ 0))) ∧
    ({ State.reset with pending := [⟨false, 0x7000#16, []⟩] } : State).pending = [⟨false, 0x7000#16, []⟩] := by decide

theorem witness_StepRunsTheDecodedOperation :
    ({ State.reset with pending := [⟨false, 0x602A#16, []⟩] } : State).pending = ⟨false, 0x602A#16, []⟩ :: [] ∧
    decode 0x602A#16 [] = .operation (.nmeaRx 0x2A#8) ∧ (Instr.submit 4095 []).wellFormed = true ∧
    decodeTableWord 16 0x1002 = some (.submit 2 [0x00#8, 0x00#8]) := by decide

theorem witness_StepWithoutEventIsNop : State.reset.pending = [] := by decide

/-- Idle, and at the last bit of a transmission; a length of 1 and of `MODEM_MAX_LEN`. -/
theorem witness_TickIsHandledBeforeSubmit :
    Invariants (sized 8 6) ∧ (sized 8 6).txActive = false ∧ Invariants (sending 1 10) ∧
    (sending 1 10).txActive = true ∧ (sending 1 10).txBitPhase = 10 ∧
    (sending 1 10).txCharIndex + 1 = (sending 1 10).txLen ∧ 1 ≤ (sending 1 10).params.modemMaxLen ∧
    8 ≤ (sending 1 10).params.modemMaxLen ∧ 8 ≤ (List.replicate 8 0x31#8).length := by
  and_intros <;> decide +kernel

/-- One state for each clause, the lengths at their bounds. -/
theorem witness_SubmitTestsInOrderThenCopies :
    (sending 0 0).txActive = true ∧ (sized 8 6).txActive = false ∧ (sized 8 6).params.modemMaxLen < 9 ∧
    8 ≤ (sized 8 6).params.modemMaxLen ∧ (List.replicate 7 0x31#8).length < 8 ∧
    8 ≤ (List.replicate 8 0x31#8).length := by decide

/-- The phases 0, 9 and 10 of the first character, and phase 10 of the last. -/
theorem witness_TickDrivesTheCurrentBitThenAdvances :
    Invariants (sending 0 0) ∧ Invariants (sending 0 9) ∧ Invariants (sending 0 10) ∧ Invariants (sending 1 10) ∧
    (sending 0 0).txActive = true ∧ (sending 0 10).txCharIndex + 1 < (sending 0 10).txLen ∧
    (sending 1 10).txLen ≤ (sending 1 10).txCharIndex + 1 ∧ (sized 8 6).txActive = false := by
  and_intros <;> decide +kernel

/-- The last clause: ten ticks and a NOP after a one-character SUBMIT, one tick before its end. -/
theorem witness_TransmissionSendsItsFrames :
    Invariants (sized 8 6) ∧ (sized 8 6).txActive = false ∧
    isNext (exec (.submit 1 [0x41#8]) (sized 8 6)) = true ∧
    (after (exec (.submit 1 [0x41#8]) (sized 8 6))).out.status = .ok ∧ .reset ∉ Instr.nop :: ticks 10 ∧
    isNext (execAll (Instr.nop :: ticks 10) (after (exec (.submit 1 [0x41#8]) (sized 8 6)))) = true ∧
    tickCount (Instr.nop :: ticks 10) < 11 * 1 ∧ tickCount (Instr.nop :: ticks 10) + 1 = 11 * 1 ∧
    0 < tickCount (Instr.nop :: ticks 10) := by
  and_intros <;> decide +kernel

theorem witness_ElevenTicksSendOneCharacter : Invariants (sized 1 1) ∧ (sized 1 1).txActive = false := by
  and_intros <;> decide +kernel

theorem witness_ActiveSlotIsNotRewritten :
    (sending 0 10).txActive = true ∧ isNext (exec .tick (sending 0 10)) = true ∧
    isNext (exec (.submit 1 [0x41#8]) (sending 0 10)) = true := by decide

theorem witness_CrcByteIsTheBitSerialUpdate : State.reset.crc = none ∧ (withCrc 0x8000#16).crc = some 0x8000#16 := by
  decide

theorem witness_CrcReadGivesTheRegister : State.reset.crc = none ∧ (withCrc 0xFFFF#16).crc = some 0xFFFF#16 := by
  decide

theorem witness_CrcIgnoresOtherUnits :
    .reset ∉ [Instr.tick, .crcByte 0x41#8, .nmeaRx 0x24#8, .crcRead] ∧
    .crcInit ∉ [Instr.tick, .crcByte 0x41#8, .nmeaRx 0x24#8, .crcRead] ∧
    isNext (execAll [.crcInit, .tick, .crcByte 0x41#8, .nmeaRx 0x24#8, .crcRead] (sized 8 6)) = true := by decide

/-- The empty body, at the capacity that just suffices and at one less. -/
theorem witness_SealingUsesTheChecksumUnit :
    (sealSentence [] 8).isSome = true ∧ sealSentence [] 7 = none := by decide

/-- The shortest whole sentence, of 8 bytes. -/
theorem witness_WholeSentencesAreTheRenderedOnes :
    wholeSentence [0x24#8, 0x24#8, 0x2A#8, 0x46#8, 0x46#8, 0x46#8, 0x46#8, 0x0A#8] = true ∧
    [0x24#8, 0x24#8, 0x2A#8, 0x46#8, 0x46#8, 0x46#8, 0x46#8, 0x0A#8] =
      [0x24#8, 0x24#8] ++ [] ++ [0x2A#8, 0x46#8, 0x46#8, 0x46#8, 0x46#8, 0x0A#8] := by decide

theorem witness_ReceiverAcceptsSealedSentences :
    sealSentence [] 8 = some [0x24#8, 0x24#8, 0x2A#8, 0x46#8, 0x46#8, 0x46#8, 0x46#8, 0x0A#8] ∧
    ([] : List Byte).length = ([] : List Byte).length ∧
    receiverCheck [0x24#8, 0x24#8, 0x2A#8, 0x46#8, 0x46#8, 0x46#8, 0x46#8, 0x0A#8] = true := by decide

theorem witness_XorChecksumLaws : [0x41#8, 0x42#8].Perm [0x42#8, 0x41#8] ∧ 7 < 8 := by decide

/-- One state for each clause; the last two at a full buffer, where the next byte goes to index 0. -/
theorem witness_NmeaRxFollowsTheTransitionTable :
    Invariants (sized 8 6) ∧ (sized 8 6).rxState = .awaitStart ∧
    Invariants (capturing 2 .capturing 0 [0x24#8, 0x41#8]) ∧
    (capturing 2 .capturing 0 [0x24#8, 0x41#8]).rxIndex = (capturing 2 .capturing 0 [0x24#8, 0x41#8]).params.nmeaBufLen ∧
    Invariants (capturing 3 .inChecksum 0 [0x24#8, 0x2A#8]) ∧ Invariants (capturing 3 .inChecksum 1 [0x24#8, 0x2A#8, 0x30#8]) ∧
    (0x41#8 : Byte) ≠ 0x24#8 := by
  and_intros <;> decide +kernel

/-- A body that just fills a buffer of six bytes. -/
theorem witness_FittingLineIsDispatchedWhole :
    Invariants (sized 8 6) ∧ 0x24#8 ∉ [0x41#8, 0x42#8] ∧ 0x2A#8 ∉ [0x41#8, 0x42#8] ∧ (0x30#8 : Byte) ≠ 0x24#8 ∧
    (0x33#8 : Byte) ≠ 0x24#8 ∧ [0x41#8, 0x42#8].length + 4 = (sized 8 6).params.nmeaBufLen ∧
    checksumMatches false [0x41#8, 0x42#8] 0x30#8 0x33#8 = true := by
  and_intros <;> decide +kernel

/-- The same line, one byte too long for a buffer of five. -/
theorem witness_OverlongLineIsRejected :
    Invariants (sized 8 5) ∧ 0x24#8 ∉ [0x41#8, 0x42#8] ∧ 0x2A#8 ∉ [0x41#8, 0x42#8] ∧ (0x30#8 : Byte) ≠ 0x24#8 ∧
    (0x33#8 : Byte) ≠ 0x24#8 ∧ [0x41#8, 0x42#8].length + 4 = (sized 8 5).params.nmeaBufLen + 1 := by
  and_intros <;> decide +kernel

/-- P4: bit 1 of the body of `$A*41`. -/
theorem witness_SingleBitCorruptionIsRejected :
    Invariants (sized 8 5) ∧ 0x24#8 ∉ [] ++ 0x41#8 :: [] ∧ 0x2A#8 ∉ [] ++ 0x41#8 :: [] ∧
    0x24#8 ∉ [] ++ (0x41#8 ^^^ (1#8 <<< 1)) :: [] ∧ 0x2A#8 ∉ [] ++ (0x41#8 ^^^ (1#8 <<< 1)) :: [] ∧
    ([] ++ 0x41#8 :: []).length + 4 ≤ (sized 8 5).params.nmeaBufLen ∧
    validate (sized 8 5).params.nmeaHexLowerOk ([0x24#8] ++ ([] ++ 0x41#8 :: []) ++ [0x2A#8, 0x34#8, 0x31#8]) = true := by
  and_intros <;> decide +kernel

theorem witness_BytesBeforeStartAreDropped :
    isNext (exec (.nmeaRx 0x31#8) (capturing 4 .inChecksum 1 [0x24#8, 0x2A#8, 0x30#8])) = true ∧
    (after (exec (.nmeaRx 0x31#8) (capturing 4 .inChecksum 1 [0x24#8, 0x2A#8, 0x30#8]))).out.dispatch ≠ none ∧
    (sized 8 6).rxState = .awaitStart ∧ 0x24#8 ∉ [0x41#8, 0x2A#8, 0x34#8, 0x31#8] ∧ [0x41#8, 0x2A#8] ≠ [] := by decide

/-- A dispatching step, and a step that takes the start marker in the same place. -/
theorem witness_DispatchExactlyAtSecondWindowByte :
    Invariants (capturing 3 .inChecksum 1 [0x24#8, 0x2A#8, 0x30#8]) ∧
    isNext (exec (.nmeaRx 0x30#8) (capturing 3 .inChecksum 1 [0x24#8, 0x2A#8, 0x30#8])) = true ∧
    isNext (exec (.nmeaRx 0x24#8) (capturing 3 .inChecksum 1 [0x24#8, 0x2A#8, 0x30#8])) = true := by
  and_intros <;> decide +kernel

/-- A step with a true verdict, one with a false verdict, one without a dispatch. -/
theorem witness_SnapshotChangesOnlyOnValidDispatch :
    (after (exec (.nmeaRx 0x30#8) (capturing 4 .inChecksum 1 [0x24#8, 0x2A#8, 0x30#8]))).out.dispatch =
      some ([0x24#8, 0x2A#8, 0x30#8, 0x30#8], true) ∧
    (after (exec (.nmeaRx 0x31#8) (capturing 4 .inChecksum 1 [0x24#8, 0x2A#8, 0x30#8]))).out.dispatch =
      some ([0x24#8, 0x2A#8, 0x30#8, 0x31#8], false) ∧
    (after (exec .tick (capturing 4 .inChecksum 1 [0x24#8, 0x2A#8, 0x30#8]))).out.dispatch = none := by decide

theorem witness_ZeroFixForcesZeroTriple :
    isNext (exec (.nmeaRx 0x30#8) (capturing 4 .inChecksum 1 [0x24#8, 0x2A#8, 0x30#8])) = true ∧
    (after (exec (.nmeaRx 0x30#8) (capturing 4 .inChecksum 1 [0x24#8, 0x2A#8, 0x30#8]))).out.dispatch =
      some ([0x24#8, 0x2A#8, 0x30#8, 0x30#8], true) := by decide

theorem witness_ResetWritesEveryElement :
    ({ State.reset with pending := [⟨true, 0x7000#16, []⟩] } : State).pending = ⟨true, 0x7000#16, []⟩ :: [] := by decide

/-- BUSY, and a reserved word. -/
theorem witness_StatusOfEachOperation :
    isNext (exec (.submit 1 [0x41#8]) (sending 0 5)) = true ∧ isNext (exec .tick (sending 0 5)) = true ∧
    isNext (step { sized 8 6 with pending := [⟨false, 0xFFFF#16, []⟩] }) = true := by decide

theorem witness_ErrorReportsChangeNothing :
    isNext (exec (.submit 1 [0x41#8]) (sending 0 5)) = true ∧
    (after (exec (.submit 1 [0x41#8]) (sending 0 5))).out.status ≠ .ok := by decide

/-- A step that stores at index 0 of the line buffer, and a TICK. -/
theorem witness_EachElementHasItsWriters :
    isNext (exec (.nmeaRx 0x24#8) (sized 8 6)) = true ∧
    memLookup (after (exec (.nmeaRx 0x24#8) (sized 8 6))).rxBuf 0 ≠ memLookup (sized 8 6).rxBuf 0 ∧
    isNext (exec .tick (sending 0 5)) = true := by decide

theorem witness_StepsOfDifferentUnitsCommute :
    unitOf .tick ≠ unitOf (.nmeaRx 0x30#8) ∧
    isNext (exec .tick (capturing 4 .inChecksum 1 [0x24#8, 0x2A#8, 0x30#8])) = true ∧
    isNext (exec (.nmeaRx 0x30#8) (after (exec .tick (capturing 4 .inChecksum 1 [0x24#8, 0x2A#8, 0x30#8])))) = true := by
  decide

theorem witness_StepKeepsInvariants :
    Invariants ((sending 1 10).withFetchWord 16 0x2000) ∧
    isNext (step ((sending 1 10).withFetchWord 16 0x2000)) = true := by
  and_intros <;> decide +kernel

theorem witness_StepKeepsMarkers :
    Invariants ((capturing 4 .capturing 0 [0x24#8, 0x41#8]).withFetchWord 16 0x602A) ∧
    MarkersOk ((capturing 4 .capturing 0 [0x24#8, 0x41#8]).withFetchWord 16 0x602A) ∧
    isNext (step ((capturing 4 .capturing 0 [0x24#8, 0x41#8]).withFetchWord 16 0x602A)) = true := by
  and_intros <;> decide +kernel

/-- A refused input and one that is not. -/
theorem witness_OnlyTheRefusedInputsStop :
    Invariants (sized 8 6) ∧ RefusedInput .crcRead (sized 8 6) ∧ ¬ RefusedInput .crcInit (sized 8 6) := by
  and_intros <;> decide +kernel

end Sys2Proof.Tests
end

section
/-! Proofs about the command word: decoding by the fields with the counts (30_encoding.md R64), and the status of each
operation (R66). -/

namespace Sys2Proof.Encoding
open Sys2Proof.Machine

/-! ### Decoding by the fields -/

/-- The operand `data` is the low byte of the word (30_encoding.md R61). -/
theorem dataField_eq_ofNat (w : CommandWord) : dataField w = BitVec.ofNat 8 w.toNat :=
  BitVec.eq_of_toNat_eq (by rw [dataField_toNat, BitVec.toNat_ofNat])

/-- A word is reserved exactly if it is no operation: decoding is total (30_encoding.md R64). -/
theorem decode_reserved_iff {w : CommandWord} {host : List Byte} :
    (∃ why, decode w host = .reserved why) ↔ ¬ ∃ i, decode w host = .operation i := by
  cases decode w host with
  | operation i => simp
  | reserved why => simp

/-- The numbers of the words that are operations: by its `op`, format Z has one, format L has 4096, format B has 256. -/
theorem decode_isOperation_iff {w : CommandWord} {host : List Byte} :
    (∃ i, decode w host = .operation i) ↔
      w.toNat = 0 ∨ w.toNat / 4096 = 1 ∨ w.toNat = 0x2000 ∨ w.toNat = 0x3000 ∨ w.toNat / 256 = 0x40 ∨
      w.toNat = 0x5000 ∨ w.toNat / 256 = 0x60 ∨ w.toNat = 0xF000 := by
  simp only [decode_eq_operation, exists_or, exists_and_left, exists_eq, and_true]

/-! ### Counting words by ranges of their numbers -/

/-- The numbers of the given ranges, each given by its first number and its size. -/
def rangeNumbers (ranges : List (Nat × Nat)) : List Nat := ranges.flatMap fun r => List.range' r.1 r.2

/-- The words whose numbers are in the given ranges. -/
def rangeWords (ranges : List (Nat × Nat)) : List CommandWord := (rangeNumbers ranges).map (BitVec.ofNat 16)

theorem mem_rangeNumbers {ranges : List (Nat × Nat)} {n : Nat} :
    n ∈ rangeNumbers ranges ↔ ∃ r ∈ ranges, r.1 ≤ n ∧ n < r.1 + r.2 := by
  simp [rangeNumbers, List.mem_range'_1]

theorem length_rangeWords (ranges : List (Nat × Nat)) :
    (rangeWords ranges).length = (ranges.map Prod.snd).sum := by
  simp [rangeWords, rangeNumbers, List.length_flatMap]

theorem nodup_rangeNumbers {ranges : List (Nat × Nat)} (h : ranges.Pairwise fun r q => r.1 + r.2 ≤ q.1) :
    (rangeNumbers ranges).Nodup := by
  refine List.nodup_flatMap.mpr ⟨fun r _ => List.nodup_range', h.imp fun {r q} hrq n hr hq => ?_⟩
  rw [List.mem_range'_1] at hr hq
  omega

section
variable {ranges : List (Nat × Nat)} (hfit : ∀ r ∈ ranges, r.1 + r.2 ≤ 65536)
include hfit

theorem lt_of_mem_rangeNumbers {n : Nat} (h : n ∈ rangeNumbers ranges) : n < 65536 := by
  obtain ⟨r, hr, _, hn⟩ := mem_rangeNumbers.mp h
  exact hn.trans_le (hfit r hr)

theorem mem_rangeWords {w : CommandWord} :
    w ∈ rangeWords ranges ↔ ∃ r ∈ ranges, r.1 ≤ w.toNat ∧ w.toNat < r.1 + r.2 := by
  rw [← mem_rangeNumbers, rangeWords, List.mem_map]
  constructor
  · rintro ⟨n, hn, rfl⟩
    rwa [BitVec.toNat_ofNat, Nat.mod_eq_of_lt (lt_of_mem_rangeNumbers hfit hn)]
  · exact fun hw => ⟨w.toNat, hw, by simp⟩

theorem nodup_rangeWords (hdisj : ranges.Pairwise fun r q => r.1 + r.2 ≤ q.1) : (rangeWords ranges).Nodup := by
  refine (nodup_rangeNumbers hdisj).map_on fun m hm n hn h => ?_
  have hmn := congrArg BitVec.toNat h
  rwa [BitVec.toNat_ofNat, BitVec.toNat_ofNat, Nat.mod_eq_of_lt (lt_of_mem_rangeNumbers hfit hm),
    Nat.mod_eq_of_lt (lt_of_mem_rangeNumbers hfit hn)] at hmn

end

/-- The words of the eight operations, in the order of the table of 30_encoding.md R62. -/
def operationRanges : List (Nat × Nat) :=
  [(0x0000, 1), (0x1000, 4096), (0x2000, 1), (0x3000, 1), (0x4000, 256), (0x5000, 1), (0x6000, 256), (0xF000, 1)]

/-- The reserved words (30_encoding.md R65): the rest of each format Z and format B `op`, and all of `op` 0x7 to 0xE. -/
def reservedRanges : List (Nat × Nat) :=
  [(0x0001, 4095), (0x2001, 4095), (0x3001, 4095), (0x4100, 3840), (0x5001, 4095), (0x6100, 3840), (0x7000, 32768),
    (0xF001, 4095)]

theorem mem_operationRanges {w : CommandWord} :
    w ∈ rangeWords operationRanges ↔ ∃ i, decode w [] = .operation i := by
  rw [mem_rangeWords (by decide), decode_isOperation_iff]
  simp only [operationRanges, List.exists_mem_cons_iff, List.not_mem_nil, false_and, exists_false, or_false]
  omega

theorem mem_reservedRanges {w : CommandWord} :
    w ∈ rangeWords reservedRanges ↔ ∃ why, decode w [] = .reserved why := by
  have hw := w.isLt
  rw [mem_rangeWords (by decide), decode_reserved_iff, decode_isOperation_iff]
  simp only [reservedRanges, List.exists_mem_cons_iff, List.not_mem_nil, false_and, exists_false, or_false]
  omega

/-- Settles O4: the clauses by `op` and `arg` are the numbers of `decode_eq_operation`, what is left is reserved, and the
ranges of the words give the counts. -/
theorem decodeByFields : Obligations.DecodeByFields := by
  refine ⟨fun w host => ?_, rangeWords operationRanges, rangeWords reservedRanges,
    nodup_rangeWords (by decide) (by decide), length_rangeWords _, fun _ => mem_operationRanges,
    nodup_rangeWords (by decide) (by decide), length_rangeWords _, fun _ => mem_reservedRanges⟩
  refine ⟨?_, ?_, ?_, ?_, ?_, ?_, ?_, ?_, ?reserved⟩
  case reserved =>
    rw [decode_reserved_iff, decode_isOperation_iff]
    omega
  all_goals
    simp only [decode_eq_operation, dataField_eq_ofNat, reduceCtorEq, and_false, and_true, or_false, false_or]
    omega

/-! ### The status of each operation -/

/-- SUBMIT answers OK, BUSY or TOO_LONG, never ILLEGAL (30_encoding.md R66). -/
theorem execSubmit_status_ne_illegal {len : Nat} {host : List Byte} {s t : State}
    (h : execSubmit len host s = .next t) : t.out.status ≠ .illegal := by
  obtain ⟨_, rfl⟩ | ⟨_, _, rfl⟩ | ⟨_, _, _, _, rfl⟩ := execSubmit_cases h <;> simp [statusOutputs]

theorem execTick_status {s t : State} (h : execTick s = .next t) : t.out.status = .ok := by
  obtain ⟨_, rfl⟩ | ⟨_, _, _, _, ⟨_, rfl⟩ | ⟨_, _, rfl⟩ | ⟨_, _, rfl⟩⟩ := execTick_cases h <;> rfl

theorem execNmeaRx_status {b : Byte} {s t : State} (h : execNmeaRx b s = .next t) : t.out.status = .ok := by
  obtain ⟨_, _, rfl⟩ | ⟨_, _, rfl⟩ | ⟨_, _, _, ⟨_, rfl⟩ | ⟨_, rfl⟩⟩ | ⟨_, _, _, ⟨_, rfl⟩ | ⟨_, _, _, _, rfl⟩⟩ :=
    execNmeaRx_cases h <;> rfl

/-- Every operation but SUBMIT that completes answers OK (30_encoding.md R66). -/
theorem exec_status_ok {i : Instr} {s t : State} (h : exec i s = .next t) (hi : ∀ len host, i ≠ .submit len host) :
    t.out.status = .ok := by
  cases i with
  | nop => cases h; rfl
  | submit len host => exact absurd rfl (hi len host)
  | tick => exact execTick_status h
  | crcInit => cases h; rfl
  | crcByte b => obtain ⟨_, _, rfl⟩ := execCrcByte_cases h; rfl
  | crcRead => obtain ⟨_, _, rfl⟩ := execCrcRead_cases h; rfl
  | nmeaRx b => exact execNmeaRx_status h
  | reset => cases h; rfl

/-- No operation answers ILLEGAL (30_encoding.md R66). -/
theorem exec_status_ne_illegal {i : Instr} {s t : State} (h : exec i s = .next t) : t.out.status ≠ .illegal := by
  by_cases hi : ∃ len host, i = .submit len host
  · obtain ⟨len, host, rfl⟩ := hi
    exact execSubmit_status_ne_illegal h
  · rw [exec_status_ok h fun len host e => hi ⟨len, host, e⟩]
    decide

/-- The next event, taken without `rst`, carries a reserved word. -/
def TakesReserved (s : State) : Prop :=
  (nextEvent s).rst = false ∧ ∃ why, decode (nextEvent s).word (nextEvent s).host = .reserved why

/-- The NOP event of an empty queue carries no reserved word, so a reserved word is always one presented. -/
theorem takesReserved_iff {s : State} :
    TakesReserved s ↔
      ∃ e es why, s.pending = e :: es ∧ e.rst = false ∧ decode e.word e.host = .reserved why := by
  unfold TakesReserved nextEvent
  cases s.pending with
  | nil => simp [Instr.event, encode, sideOperand, decode_reserved_iff, decode_isOperation_iff]
  | cons e es => simp [and_left_comm]

/-- A step answers a reserved word, or is the meaning of some operation: RESET where `rst` is raised. -/
theorem step_cases (s : State) :
    (TakesReserved s ∧ step s = answerReserved (dropEvent s)) ∨
    (¬ TakesReserved s ∧ ∃ i, step s = exec i (dropEvent s)) := by
  unfold TakesReserved step
  by_cases hrst : (nextEvent s).rst = true
  · exact .inr ⟨by simp [hrst], .reset, by rw [if_pos hrst, exec_reset]⟩
  · rw [if_neg hrst]
    cases decode (nextEvent s).word (nextEvent s).host with
    | operation i => exact .inr ⟨by simp, i, rfl⟩
    | reserved why => exact .inl ⟨⟨by simpa using hrst, why, rfl⟩, rfl⟩

/-- A step answers ILLEGAL exactly if its event carries a reserved word (30_encoding.md R66). -/
theorem step_status_illegal_iff {s t : State} (h : step s = .next t) :
    t.out.status = .illegal ↔ TakesReserved s := by
  obtain ⟨hres, hstep⟩ | ⟨hres, i, hstep⟩ := step_cases s
  · rw [hstep] at h
    cases h
    exact iff_of_true rfl hres
  · exact iff_of_false (exec_status_ne_illegal (hstep ▸ h)) hres

/-- Settles O38: by the answers of each operation, and by the event that a step takes. -/
theorem statusOfEachOperation : Obligations.StatusOfEachOperation :=
  ⟨⟨rfl, rfl, rfl, rfl⟩, fun _ _ _ h => ⟨exec_status_ne_illegal h, exec_status_ok h⟩,
    fun _ _ h => (step_status_illegal_iff h).trans takesReserved_iff⟩

end Sys2Proof.Encoding
end

section
/-! Proofs about unit A, the RTTY modem: what SUBMIT answers (40_modem.md R90 to R93), the tick (R95), and the eleven
ticks of one character (R99). -/

namespace Sys2Proof.Modem
open Sys2Proof.Machine

/-! ### SUBMIT -/

/-- The word of SUBMIT is 0x1000 plus its length (30_encoding.md R62). -/
theorem decode_submit_word {len : Nat} (hl : len ≤ 4095) (host : List Byte) :
    decode (BitVec.ofNat 16 (0x1000 + len)) host = .operation (.submit len host) := by
  have hw : (BitVec.ofNat 16 (0x1000 + len)).toNat = 0x1000 + len := by
    rw [BitVec.toNat_ofNat]; omega
  have hop : (0x1000 + len) / 4096 = 1 := by omega
  have harg : (0x1000 + len) % 4096 = len := by omega
  exact decode_eq_operation.mpr (.inr (.inl (by rw [hw, harg]; exact ⟨hop, rfl⟩)))

section
variable {len : Nat} {host : List Byte} {s : State} (ha : s.txActive = false)
include ha

theorem execSubmit_tooLong (hm : s.params.modemMaxLen < len) :
    execSubmit len host s = .next { s with out := statusOutputs .tooLong } := by
  unfold execSubmit
  rw [if_neg (by simp [ha]), if_pos hm, answer_eq]

theorem execSubmit_empty : execSubmit 0 host s = .refused .submitEmpty := by
  unfold execSubmit
  rw [if_neg (by simp [ha]), if_neg (Nat.not_lt_zero _), if_pos rfl]

theorem execSubmit_shortHost (hm : len ≤ s.params.modemMaxLen) (h0 : len ≠ 0) (hh : host.length < len) :
    execSubmit len host s = .refused .submitShortHost := by
  unfold execSubmit
  rw [if_neg (by simp [ha]), if_neg (Nat.not_lt.mpr hm), if_neg h0, hostRead, if_pos hh]

end

/-- The slot after an accepted SUBMIT: the first `len` bytes of the caller's buffer, every other index as it was
(40_modem.md R90). -/
theorem memLookup_slot {len : Nat} {host : List Byte} (hh : len ≤ host.length) (m : Memory) (a : Nat) :
    memLookup (memStore 0 (host.take len) m) a = if a < len then host[a]? else memLookup m a := by
  rw [memLookup_memStore, List.length_take, Nat.min_eq_left hh]
  by_cases h : a < len
  · simp [h, List.getElem?_take_of_lt h]
  · simp [h]

/-- Settles O10: each clause is the answer of SUBMIT behind the tests before it. -/
theorem submitTestsInOrderThenCopies : Obligations.SubmitTestsInOrderThenCopies := by
  intro s len host
  refine ⟨fun hl => decode_submit_word hl host, execSubmit_busy, execSubmit_tooLong, ?empty, execSubmit_shortHost,
    ?accepted⟩
  case empty =>
    rintro ha - rfl
    exact execSubmit_empty ha
  case accepted =>
    intro ha hm h0 hh
    exact ⟨_, execSubmit_accepted ha hm (Nat.one_le_iff_ne_zero.mpr h0) hh, memLookup_slot hh s.txBuf⟩

/-! ### TICK -/

/-- The tick in the idle state (40_modem.md R95). -/
theorem execTick_idle {s : State} (ha : s.txActive = false) :
    execTick s = .next { s with line := s.params.idleLevel, out := statusOutputs .ok } := by
  unfold execTick
  rw [if_neg (by simp [ha])]; rfl

/-- The character under the sequencer of an active slot is `c`. -/
def Sending (c : Byte) (s : State) : Prop :=
  s.txActive = true ∧ s.txCharIndex < s.params.modemMaxLen ∧ memLookup s.txBuf s.txCharIndex = some c

/-- An active slot has a character under its sequencer (10_state.md R18). -/
theorem exists_sending {s : State} (hi : Invariants s) (ha : s.txActive = true) :
    ∃ c, Sending c s ∧ s.txBitPhase ≤ 10 := by
  obtain ⟨_, _, ⟨hlen, hact, _, _⟩, _⟩ := hi
  obtain ⟨_, hchar, hphase, hslot⟩ := hact ha
  obtain ⟨c, hc⟩ := Option.isSome_iff_exists.mp (hslot _ hchar)
  exact ⟨c, ⟨ha, by omega, hc⟩, hphase⟩

section
variable {c : Byte} {s : State} (hs : Sending c s)
include hs

/-- The tick of an active slot drives the bit, then advances (40_modem.md R95). -/
theorem execTick_sending :
    execTick s = answer .ok (advanceSequencer (setLine (drivenLevel c s.txBitPhase s.line) s)) := by
  obtain ⟨ha, hi, hc⟩ := hs
  unfold execTick
  rw [if_pos ha, (readByte_ok_iff (sp := .tx)).mpr ⟨hi, hc⟩]

/-- The tick inside a character. -/
theorem execTick_bit (hp : s.txBitPhase < 10) :
    execTick s = .next { s with line := drivenLevel c s.txBitPhase s.line, txBitPhase := s.txBitPhase + 1,
                                out := statusOutputs .ok } := by
  rw [execTick_sending hs, advanceSequencer_bit (by simpa using hp)]; rfl

/-- The tick that ends a character with another after it. -/
theorem execTick_char (hp : s.txBitPhase = 10) (hn : s.txCharIndex + 1 < s.txLen) :
    execTick s = .next { s with line := drivenLevel c s.txBitPhase s.line, txBitPhase := 0,
                                txCharIndex := s.txCharIndex + 1, out := statusOutputs .ok } := by
  rw [execTick_sending hs, advanceSequencer_char (by simp [hp]) (by simpa using hn)]; rfl

/-- The tick that ends the last character. -/
theorem execTick_last (hp : s.txBitPhase = 10) (hn : s.txLen ≤ s.txCharIndex + 1) :
    execTick s = .next { s with line := drivenLevel c s.txBitPhase s.line, txBitPhase := 0, txCharIndex := 0,
                                txActive := false, out := statusOutputs .ok } := by
  rw [execTick_sending hs, advanceSequencer_last (by simp [hp]) (by simpa using hn)]; rfl

end

/-- Settles O11: the invariants give the character, whose frame gives the bit, and the phase and the index decide the
advance. -/
theorem tickDrivesTheCurrentBitThenAdvances : Obligations.TickDrivesTheCurrentBitThenAdvances := by
  refine ⟨rfl, fun s => ⟨execTick_idle, fun hi ha => ?_⟩⟩
  obtain ⟨c, hs, hp⟩ := exists_sending hi ha
  have ⟨_, _, hc⟩ := hs
  exact ⟨c, drivenLevel c s.txBitPhase s.line, hc, drivenLevel_eq_frame c hp s.line, execTick_bit hs,
    execTick_char hs, execTick_last hs⟩

/-! ### The eleven ticks of one character -/

theorem execAll_cons_next {i : Instr} {is : List Instr} {s t : State} (h : exec i s = .next t) :
    execAll (i :: is) s = execAll is t := by
  rw [execAll, h]

/-- What `k` ticks after the SUBMIT of the one character `c` hold, the idle level being `idle` (40_modem.md R99). -/
structure OneCharacter (c : Byte) (idle : Level) (k : Nat) (s : State) : Prop where
  idleLevel : s.params.idleLevel = idle
  sending : k < 11 → Sending c s ∧ s.txCharIndex = 0 ∧ s.txBitPhase = k ∧ s.txLen = 1
  ended : 11 ≤ k → s.txActive = false
  frame : 1 ≤ k → k ≤ 11 → (charFrame c)[k - 1]? = some s.line
  rest : 12 ≤ k → s.line = idle

/-- The accepted SUBMIT of one character. -/
theorem execSubmit_oneCharacter {s : State} (c : Byte) (ha : s.txActive = false) (hm : 1 ≤ s.params.modemMaxLen) :
    ∃ t, exec (.submit 1 [c]) s = .next t ∧ OneCharacter c s.params.idleLevel 0 t := by
  refine ⟨_, execSubmit_accepted (host := [c]) ha hm le_rfl le_rfl, ?_⟩
  refine ⟨rfl, fun _ => ⟨⟨rfl, hm, ?slot⟩, rfl, rfl, rfl⟩, ?_, ?_, ?_⟩
  case slot => simp [memLookup_memStore_one]
  all_goals omega

/-- One tick more: inside the character, at its last stop bit, or after it. -/
theorem OneCharacter.after_tick {c : Byte} {idle : Level} {k : Nat} {s : State} (h : OneCharacter c idle k s) :
    ∃ t, exec .tick s = .next t ∧ OneCharacter c idle (k + 1) t := by
  obtain hk | rfl | hk : k < 10 ∨ k = 10 ∨ 11 ≤ k := by omega
  · obtain ⟨hs, hchar, rfl, hlen⟩ := h.sending (by omega)
    exact ⟨_, execTick_bit hs hk, h.idleLevel, fun _ => ⟨hs, hchar, rfl, hlen⟩, by omega,
      fun _ _ => drivenLevel_eq_frame c hk.le s.line, by omega⟩
  · obtain ⟨hs, hchar, hphase, hlen⟩ := h.sending (by omega)
    refine ⟨_, execTick_last hs hphase (by omega), h.idleLevel, by omega, fun _ => rfl, fun _ _ => ?_, by omega⟩
    rw [hphase]
    exact drivenLevel_eq_frame c le_rfl s.line
  · have ha := h.ended hk
    exact ⟨_, execTick_idle ha, h.idleLevel, by omega, fun _ => ha, by omega, fun _ => h.idleLevel⟩

theorem OneCharacter.after_ticks {c : Byte} {idle : Level} {j : Nat} {s : State} (h : OneCharacter c idle j s) (k : Nat) :
    ∃ t, execAll (ticks k) s = .next t ∧ OneCharacter c idle (j + k) t := by
  induction k generalizing j s with
  | zero => exact ⟨s, rfl, h⟩
  | succ k ih =>
    obtain ⟨u, hu, hone⟩ := h.after_tick
    obtain ⟨t, ht, hend⟩ := ih hone
    exact ⟨t, (execAll_cons_next hu).trans ht, by rwa [← Nat.succ_add_eq_add_succ]⟩

/-- The slot is active exactly before the eleventh tick. -/
theorem OneCharacter.txActive_iff {c : Byte} {idle : Level} {k : Nat} {s : State} (h : OneCharacter c idle k s) :
    s.txActive = true ↔ k < 11 := by
  refine ⟨fun ha => ?_, fun hk => (h.sending hk).1.1⟩
  by_contra hk
  rw [h.ended (Nat.not_lt.mp hk)] at ha
  cases ha

/-- Settles O13: the SUBMIT begins the character, and each tick goes on with it. -/
theorem elevenTicksSendOneCharacter : Obligations.ElevenTicksSendOneCharacter := by
  intro s c k ⟨⟨hmax, _⟩, _⟩ ha
  obtain ⟨u, hu, hone⟩ := execSubmit_oneCharacter c ha hmax
  obtain ⟨t, ht, hend⟩ := hone.after_ticks k
  rw [Nat.zero_add] at hend
  exact ⟨t, (execAll_cons_next hu).trans ht, fun h1 h11 => (hend.frame h1 h11).symm, hend.txActive_iff, hend.rest⟩

end Sys2Proof.Modem
end

section
/-! Proofs about unit C, the checksum generator: what CRC_INIT, CRC_BYTE and CRC_READ answer (41_checksum.md R110 to R113),
and the run that computes `crc16` (R114). -/

namespace Sys2Proof.Checksum
open Sys2Proof.Machine

/-! ### CRC_INIT -/

/-- CRC_INIT in every state (41_checksum.md R110). -/
theorem exec_crcInit_next (s : State) :
    exec .crcInit s = .next { s with crc := some 0xFFFF#16, out := statusOutputs .ok } := rfl

/-- A CRC_INIT leaves nothing of the one before it (41_checksum.md R110). -/
theorem execAll_crcInit_twice (is : List Instr) (s : State) :
    execAll (.crcInit :: .crcInit :: is) s = execAll (.crcInit :: is) s := by
  simp only [execAll, exec_crcInit_next]

/-- Settles O15: by the answer of CRC_INIT, which the second one repeats. -/
theorem crcInitLoadsAllOnes : Obligations.CrcInitLoadsAllOnes :=
  ⟨decode_eq_operation.mpr (by decide), fun s => ⟨exec_crcInit_next s, execAll_crcInit_twice [] s⟩⟩

/-! ### CRC_BYTE -/

/-- The word of CRC_BYTE is 0x4000 plus its byte (30_encoding.md R62). -/
theorem decode_crcByte_word (data : Byte) (host : List Byte) :
    decode (BitVec.ofNat 16 (0x4000 + data.toNat)) host = .operation (.crcByte data) := by
  have hd := data.isLt
  have hw : (BitVec.ofNat 16 (0x4000 + data.toNat)).toNat = 0x4000 + data.toNat := by
    rw [BitVec.toNat_ofNat]; omega
  have hop : (0x4000 + data.toNat) / 256 = 0x40 := by omega
  have hdata : dataField (BitVec.ofNat 16 (0x4000 + data.toNat)) = data := by
    apply BitVec.eq_of_toNat_eq
    rw [dataField_toNat, hw]; omega
  simp [decode_eq_operation, hw, hop, hdata]

theorem exec_crcByte_noValue {s : State} (data : Byte) (hc : s.crc = none) :
    exec (.crcByte data) s = .refused .crcNoValue := by
  rw [exec_crcByte, execCrcByte, hc]

/-- CRC_BYTE on a register that holds a value (41_checksum.md R111). -/
theorem exec_crcByte_next {s : State} {c : CrcWord} (data : Byte) (hc : s.crc = some c) :
    exec (.crcByte data) s = .next { s with crc := some (crcStep c data), out := statusOutputs .ok } := by
  rw [exec_crcByte, execCrcByte, hc]; rfl

/-- The step of a byte is one bit-serial iteration for each bit number, 7 first (41_checksum.md R111). -/
theorem crcStep_eq_foldl_bitNumbers (c : CrcWord) (data : Byte) :
    crcStep c data = [7, 6, 5, 4, 3, 2, 1, 0].foldl (fun c k => crcBit c (data.getLsbD k)) c := rfl

/-- Settles O16: the byte is bits 7:0 of the word, and the step is the eight iterations. -/
theorem crcByteIsTheBitSerialUpdate : Obligations.CrcByteIsTheBitSerialUpdate := by
  refine fun s data => ⟨decode_crcByte_word data [], exec_crcByte_noValue data, fun c hc => ?_⟩
  rw [exec_crcByte_next data hc, crcStep_eq_foldl_bitNumbers]
  rfl

/-! ### CRC_READ -/

theorem exec_crcRead_noValue {s : State} (hc : s.crc = none) : exec .crcRead s = .refused .crcNoValue := by
  rw [exec_crcRead, execCrcRead, hc]

/-- CRC_READ of a register that holds a value (41_checksum.md R112). -/
theorem exec_crcRead_next {s : State} {c : CrcWord} (hc : s.crc = some c) :
    exec .crcRead s = .next { s with out := { status := .ok, dout := c, dispatch := none } } := by
  have hread : execCrcRead s = answerDout c s := by rw [execCrcRead, hc]
  exact hread

/-- Settles O18: by the two answers of CRC_READ. -/
theorem crcReadGivesTheRegister : Obligations.CrcReadGivesTheRegister :=
  ⟨decode_eq_operation.mpr (by decide), fun _ => ⟨exec_crcRead_noValue, fun _ => exec_crcRead_next⟩⟩

/-! ### The run that computes `crc16` -/

/-- One byte more is one step of CRC_BYTE more (41_checksum.md R114). -/
theorem crc16_append_singleton (bs : List Byte) (b : Byte) : crc16 (bs ++ [b]) = crcStep (crc16 bs) b :=
  List.foldl_concat ..

/-- CRC_BYTE for each byte and then CRC_READ go on from whatever value the register holds. -/
theorem execAll_crcBytes_crcRead (bs : List Byte) {s : State} {c : CrcWord} (hc : s.crc = some c) :
    execAll (bs.map .crcByte ++ [.crcRead]) s = .next { s with
      crc := some (bs.foldl crcStep c)
      out := { status := .ok, dout := bs.foldl crcStep c, dispatch := none } } := by
  induction bs generalizing s c with
  | nil =>
    rw [List.map_nil, List.nil_append, Modem.execAll_cons_next (exec_crcRead_next hc), execAll, List.foldl_nil, ← hc]
  | cons b bs ih => exact (Modem.execAll_cons_next (exec_crcByte_next b hc)).trans (ih rfl)

/-- `CRC_OF` of the bytes, from every state, leaves their `crc16` in the register and on `dout` (41_checksum.md R114). -/
theorem execAll_crcOf (s : State) (bs : List Byte) :
    execAll (crcOf bs) s = .next { s with
      crc := some (crc16 bs), out := { status := .ok, dout := crc16 bs, dispatch := none } } :=
  (Modem.execAll_cons_next (exec_crcInit_next s)).trans (execAll_crcBytes_crcRead bs rfl)

/-- Settles O19: `crc16` is a fold over the bytes, and the run makes the same fold on the register. -/
theorem crcReadReturnsCrc16OfTheBytes : Obligations.CrcReadReturnsCrc16OfTheBytes :=
  ⟨rfl, crc16_append_singleton, fun s bs => ⟨_, execAll_crcOf s bs, rfl, rfl⟩⟩

end Sys2Proof.Checksum
end

section
/-! Proofs about unit B, the NMEA ingest: one step of NMEA_RX (42_nmea.md R130 to R138), the hexadecimal digits that are
read (R142), and the bytes before a start marker (R133). -/

namespace Sys2Proof.Ingest
open Sys2Proof.Machine

/-! ### One step of NMEA_RX -/

/-- The word of NMEA_RX is 0x6000 plus its byte (30_encoding.md R62). -/
theorem decode_nmeaRx_word (b : Byte) (host : List Byte) :
    decode (BitVec.ofNat 16 (0x6000 + b.toNat)) host = .operation (.nmeaRx b) := by
  have hb := b.isLt
  have hw : (BitVec.ofNat 16 (0x6000 + b.toNat)).toNat = 0x6000 + b.toNat := by
    rw [BitVec.toNat_ofNat]; omega
  have hop : (0x6000 + b.toNat) / 256 = 0x60 := by omega
  have hdata : dataField (BitVec.ofNat 16 (0x6000 + b.toNat)) = b :=
    BitVec.eq_of_toNat_eq (by rw [dataField_toNat, hw]; omega)
  simp [decode_eq_operation, hw, hop, hdata]

/-- In AWAIT_START a byte other than the start marker is dropped (42_nmea.md R133). -/
theorem exec_nmeaRx_dropped {b : Byte} {s : State} (hb : b ≠ 0x24#8) (hst : s.rxState = .awaitStart) :
    exec (.nmeaRx b) s = .next { s with out := statusOutputs .ok } := by
  have hdrop : execNmeaRx b s = answer .ok s := by rw [execNmeaRx, startMarker_eq, if_neg hb, hst]
  exact hdrop

/-- Where NMEA_RX stores a byte that it does not drop: a start marker at index 0, any other byte where `append` stores
(42_nmea.md R132, R135). -/
def storeIndex (b : Byte) (s : State) : Nat :=
  if b = 0x24#8 ∨ s.rxIndex = s.params.nmeaBufLen then 0 else s.rxIndex

theorem storeIndex_start (s : State) : storeIndex 0x24#8 s = 0 := rfl

theorem storeIndex_of_ne {b : Byte} (hb : b ≠ 0x24#8) (s : State) : storeIndex b s = appendIndex s := by
  simp [storeIndex, appendIndex_eq, hb]

section
variable {s : State} (hi : Invariants s)
include hi

/-- Under the invariants NMEA_RX completes. -/
theorem exists_execNmeaRx_next (b : Byte) : ∃ t, execNmeaRx b s = .next t := by
  obtain ⟨hparams, _, _, hingest⟩ := hi
  exact execNmeaRx_next b hparams hingest

/-- A start marker begins the capture in every state (42_nmea.md R132). -/
theorem exec_nmeaRx_start :
    exec (.nmeaRx 0x24#8) s = .next { s with
      rxBuf := memStore 0 [0x24#8] s.rxBuf, rxIndex := 1, rxState := .capturing, rxCsCount := 0
      out := statusOutputs .ok } := by
  obtain ⟨t, ht⟩ := exists_execNmeaRx_next hi 0x24#8
  rw [exec_nmeaRx, ht]
  have hcases := execNmeaRx_cases ht
  simp only [ne_eq, not_true_eq_false, false_and, true_and, or_false, false_or] at hcases
  rw [hcases.2]

variable {b : Byte} (hb : b ≠ 0x24#8)
include hb

/-- In CAPTURING the byte is appended, and the checksum marker opens the window (42_nmea.md R130). -/
theorem exec_nmeaRx_capturing (hst : s.rxState = .capturing) :
    exec (.nmeaRx b) s = .next { s with
      rxBuf := memStore (appendIndex s) [b] s.rxBuf, rxIndex := appendIndex s + 1
      rxState := if b = 0x2A#8 then .inChecksum else .capturing
      rxCsCount := 0, out := statusOutputs .ok } := by
  obtain ⟨t, ht⟩ := exists_execNmeaRx_next hi b
  have hcount : s.rxCsCount = 0 := by
    obtain ⟨_, _, _, _, _, _, hcount, _⟩ := hi
    exact hcount (by simp [hst])
  rw [exec_nmeaRx, ht]
  have hcases := execNmeaRx_cases ht
  simp only [hb, hst, ne_eq, not_false_eq_true, reduceCtorEq, false_and, true_and, or_false, false_or] at hcases
  obtain ⟨_, ⟨hc, rfl⟩ | ⟨hc, rfl⟩⟩ := hcases
  · simp [hc, hcount]
  · simp [hc]

/-- The first byte of the checksum window is appended and counted, whatever it is (42_nmea.md R130). -/
theorem exec_nmeaRx_firstWindowByte (hst : s.rxState = .inChecksum) (hcount : s.rxCsCount = 0) :
    exec (.nmeaRx b) s = .next { s with
      rxBuf := memStore (appendIndex s) [b] s.rxBuf, rxIndex := appendIndex s + 1
      rxCsCount := 1, out := statusOutputs .ok } := by
  obtain ⟨t, ht⟩ := exists_execNmeaRx_next hi b
  rw [exec_nmeaRx, ht]
  have hcases := execNmeaRx_cases ht
  simp only [hb, hst, hcount, ne_eq, not_false_eq_true, not_true_eq_false, reduceCtorEq, false_and, and_false, true_and,
    or_false, false_or] at hcases
  rw [hcases.2, hst]

/-- The second byte of the checksum window is appended and the captured line dispatched (42_nmea.md R137, R138). -/
theorem exec_nmeaRx_secondWindowByte (hst : s.rxState = .inChecksum) (hcount : s.rxCsCount = 1) :
    ∃ l : List Byte, l.length = appendIndex s + 1 ∧
      (∀ a, a < appendIndex s + 1 → l[a]? = memLookup (memStore (appendIndex s) [b] s.rxBuf) a) ∧
      exec (.nmeaRx b) s = .next { s with
        rxBuf := memStore (appendIndex s) [b] s.rxBuf, rxIndex := appendIndex s + 1
        rxState := .awaitStart, rxCsCount := 0
        gpsSnapshot := if validate s.params.nmeaHexLowerOk l then gpsUpdate s.gpsSnapshot l else s.gpsSnapshot
        out := { status := .ok, dout := 0#16, dispatch := some (l, validate s.params.nmeaHexLowerOk l) } } := by
  obtain ⟨t, ht⟩ := exists_execNmeaRx_next hi b
  rw [exec_nmeaRx, ht]
  have hcases := execNmeaRx_cases ht
  simp only [hb, hst, hcount, ne_eq, not_false_eq_true, reduceCtorEq, one_ne_zero, false_and, and_false, true_and,
    false_or] at hcases
  obtain ⟨_, l, hlen, hl, rfl⟩ := hcases
  exact ⟨l, hlen, hl, rfl⟩

end

/-- Settles O25: each clause is the answer of NMEA_RX in its capture state, and the store is one byte at `storeIndex`. -/
theorem nmeaRxFollowsTheTransitionTable : Obligations.NmeaRxFollowsTheTransitionTable := by
  refine fun s b hi => ⟨decode_nmeaRx_word b [], exec_nmeaRx_dropped, fun _ =>
    ⟨memStore (storeIndex b s) [b] s.rxBuf, memLookup_memStore_one _ b s.rxBuf, ?start, ?rest⟩⟩
  case start =>
    rintro rfl
    rw [storeIndex_start]
    exact exec_nmeaRx_start hi
  case rest =>
    by_cases hb : b = 0x24#8
    · exact ⟨absurd hb, absurd hb, absurd hb⟩
    · have hindex := storeIndex_of_ne hb s
      unfold storeIndex at hindex ⊢
      rw [hindex]
      exact ⟨fun _ => exec_nmeaRx_capturing hi hb, fun _ => exec_nmeaRx_firstWindowByte hi hb,
        fun _ => exec_nmeaRx_secondWindowByte hi hb⟩

/-! ### The hexadecimal digits that are read -/

/-- The codes that are read as digits: `0` to `9`, `A` to `F`, and `a` to `f` if lowercase is allowed (30_encoding.md
R74). -/
theorem hexVal_eq_some_iff {lowerOk : Bool} {b : Byte} {n : Nat} :
    hexVal lowerOk b = some n ↔
      (n ≤ 9 ∧ b.toNat = 0x30 + n) ∨ (10 ≤ n ∧ n < 16 ∧ b.toNat = 0x37 + n) ∨
      (lowerOk = true ∧ 10 ≤ n ∧ n < 16 ∧ b.toNat = 0x57 + n) := by
  unfold hexVal
  dsimp only
  split_ifs with hdecimal hupper hlower
  · rw [Option.some.injEq]
    omega
  · rw [Option.some.injEq]
    omega
  · obtain ⟨hl, _, _⟩ := hlower
    simp only [Option.some.injEq, hl, true_and]
    omega
  · refine iff_of_false (by simp) ?_
    rintro (h | h | ⟨hl, _, _, h⟩)
    · omega
    · omega
    · exact hlower ⟨hl, by omega, by omega⟩

/-- The codes of the uppercase digits (30_encoding.md R74). -/
theorem hexDigit_toNat {n : Nat} (hn : n < 16) : (hexDigit n).toNat = if n ≤ 9 then 0x30 + n else 0x37 + n := by
  unfold hexDigit
  split <;> rw [BitVec.toNat_ofNat] <;> omega

theorem eq_hexDigit_iff {b : Byte} {n : Nat} (hn : n < 16) :
    b = hexDigit n ↔ (n ≤ 9 ∧ b.toNat = 0x30 + n) ∨ (10 ≤ n ∧ b.toNat = 0x37 + n) := by
  rw [← BitVec.toNat_inj, hexDigit_toNat hn]
  split <;> omega

/-- A lowercase digit has the code of its uppercase digit plus 0x20 (30_encoding.md R74). -/
theorem eq_lowerDigit_iff {b : Byte} {n : Nat} (h10 : 10 ≤ n) (hn : n < 16) :
    b = hexDigit n + 0x20#8 ↔ b.toNat = 0x57 + n := by
  rw [← BitVec.toNat_inj, BitVec.toNat_add, hexDigit_toNat hn, if_neg (by omega), BitVec.toNat_ofNat]
  omega

/-- A byte is read as `n` exactly if it is the uppercase digit of `n`, or its lowercase digit where that is allowed
(42_nmea.md R142). -/
theorem hexVal_eq_some_iff_hexDigit {lowerOk : Bool} {b : Byte} {n : Nat} :
    hexVal lowerOk b = some n ↔
      n < 16 ∧ (b = hexDigit n ∨ (lowerOk = true ∧ 10 ≤ n ∧ b = hexDigit n + 0x20#8)) := by
  rw [hexVal_eq_some_iff]
  by_cases hn : n < 16
  · rw [eq_hexDigit_iff hn]
    by_cases h10 : 10 ≤ n
    · simp [eq_lowerDigit_iff h10 hn, hn, h10, or_assoc]
    · simp [hn, h10]
  · have h9 : ¬ n ≤ 9 := by omega
    simp [hn, h9]

/-- Settles O27: the default and its two lines are evaluated, the digits are `hexVal_eq_some_iff_hexDigit`. -/
theorem hexDigitsAccepted : Obligations.HexDigitsAccepted :=
  ⟨rfl, by decide, by decide, fun _ _ _ => hexVal_eq_some_iff_hexDigit⟩

/-! ### The bytes before a start marker, and the state after a dispatch -/

/-- A non-empty run of bytes without a start marker is dropped byte by byte (42_nmea.md R133). -/
theorem execAll_nmeaBurst_dropped {s : State} {b : Byte} {bs : List Byte} (hst : s.rxState = .awaitStart)
    (hmem : 0x24#8 ∉ b :: bs) :
    execAll (nmeaBurst (b :: bs)) s = .next { s with out := statusOutputs .ok } := by
  induction bs generalizing b s with
  | nil => exact Modem.execAll_cons_next (exec_nmeaRx_dropped (List.ne_of_not_mem_cons hmem).symm hst)
  | cons c cs ih =>
    have hdrop := exec_nmeaRx_dropped (List.ne_of_not_mem_cons hmem).symm hst
    exact (Modem.execAll_cons_next hdrop).trans (ih hst (List.not_mem_of_not_mem_cons hmem))

/-- No operation but NMEA_RX dispatches (42_nmea.md R138). -/
theorem exec_dispatch_eq_none {i : Instr} {s t : State} (h : exec i s = .next t) (hi : ∀ b, i ≠ .nmeaRx b) :
    t.out.dispatch = none := by
  cases i with
  | nop => cases h; rfl
  | submit len host => obtain ⟨_, rfl⟩ | ⟨_, _, rfl⟩ | ⟨_, _, _, _, rfl⟩ := execSubmit_cases h <;> rfl
  | tick => obtain ⟨_, rfl⟩ | ⟨_, _, _, _, ⟨_, rfl⟩ | ⟨_, _, rfl⟩ | ⟨_, _, rfl⟩⟩ := execTick_cases h <;> rfl
  | crcInit => cases h; rfl
  | crcByte b => obtain ⟨_, _, rfl⟩ := execCrcByte_cases h; rfl
  | crcRead => obtain ⟨_, _, rfl⟩ := execCrcRead_cases h; rfl
  | nmeaRx b => exact absurd rfl (hi b)
  | reset => cases h; rfl

/-- A step of NMEA_RX that dispatches ends in AWAIT_START (42_nmea.md R139). -/
theorem execNmeaRx_dispatch_none_or_awaitStart {b : Byte} {s t : State} (h : execNmeaRx b s = .next t) :
    t.out.dispatch = none ∨ t.rxState = .awaitStart := by
  obtain ⟨_, _, rfl⟩ | ⟨_, _, rfl⟩ | ⟨_, _, _, ⟨_, rfl⟩ | ⟨_, rfl⟩⟩ | ⟨_, _, _, ⟨_, rfl⟩ | ⟨_, _, _, _, rfl⟩⟩ :=
    execNmeaRx_cases h <;> simp [statusOutputs]

/-- AWAIT_START is the state after every step that dispatches (42_nmea.md R133, R139). -/
theorem exec_dispatch_awaitStart {i : Instr} {s t : State} (h : exec i s = .next t) (hd : t.out.dispatch ≠ none) :
    t.rxState = .awaitStart := by
  by_cases hi : ∃ b, i = .nmeaRx b
  · obtain ⟨b, rfl⟩ := hi
    exact (execNmeaRx_dispatch_none_or_awaitStart h).resolve_left hd
  · exact absurd (exec_dispatch_eq_none h fun b hb => hi ⟨b, hb⟩) hd

/-- Settles O31: by the run of dropped bytes, the state after reset, and the state after a dispatch. -/
theorem bytesBeforeStartAreDropped : Obligations.BytesBeforeStartAreDropped := by
  refine ⟨fun s bs hst hmem hne => ?_, rfl, fun _ _ _ => exec_dispatch_awaitStart⟩
  cases bs with
  | nil => exact absurd rfl hne
  | cons b bs => exact execAll_nmeaBurst_dropped hst hmem

end Sys2Proof.Ingest
end

section
/-! Proofs about the system operations NOP and RESET, the `rst` input and the reserved words (43_system.md R160 to R162). -/

namespace Sys2Proof.System
open Sys2Proof.Machine

/-! ### The event that a step takes -/

section
variable {s : State} {e : Event} {es : List Event} (hp : s.pending = e :: es)
include hp

theorem nextEvent_eq : nextEvent s = e := by
  rw [nextEvent, hp]

theorem dropEvent_eq : dropEvent s = { s with pending := es } := by
  rw [dropEvent, hp, List.tail_cons, setPending]

/-- A raised `rst` forces the reset step, whatever the word is (43_system.md R161). -/
theorem step_of_rst (hr : e.rst = true) : step s = exec .reset { s with pending := es } := by
  rw [step, nextEvent_eq hp, if_pos hr, dropEvent_eq hp, exec_reset]

/-- A reserved word is answered ILLEGAL and its event is taken (43_system.md R162). -/
theorem step_of_reserved (hr : e.rst = false) (hw : ∃ why, decode e.word e.host = .reserved why) :
    step s = .next { s with pending := es, out := statusOutputs .illegal } := by
  obtain ⟨why, hw⟩ := hw
  have htakes : Encoding.TakesReserved s := Encoding.takesReserved_iff.mpr ⟨e, es, why, hp, hr, hw⟩
  obtain ⟨_, hstep⟩ | ⟨hnot, _⟩ := Encoding.step_cases s
  · rw [hstep, dropEvent_eq hp, answerReserved, answer_eq]
  · exact absurd htakes hnot

end

/-! ### Reserved words -/

/-- The number of a word that 30_encoding.md R65 reserves, by its `op`, its `arg` and its bits 11:8. -/
def IsReservedNumber (n : Nat) : Prop :=
  (7 ≤ n / 4096 ∧ n / 4096 ≤ 14) ∨
  ((n / 4096 = 0 ∨ n / 4096 = 2 ∨ n / 4096 = 3 ∨ n / 4096 = 5 ∨ n / 4096 = 15) ∧ n % 4096 ≠ 0) ∨
  ((n / 4096 = 4 ∨ n / 4096 = 6) ∧ n / 256 % 16 ≠ 0)

/-- The words of R65 are the complement of the operations: each `op` leaves the numbers that
`Encoding.decode_isOperation_iff` lists. -/
theorem decode_isOperation_iff_not_isReservedNumber {w : CommandWord} {host : List Byte} :
    (∃ i, decode w host = .operation i) ↔ ¬ IsReservedNumber w.toNat := by
  have hw := w.isLt
  rw [Encoding.decode_isOperation_iff, IsReservedNumber]
  omega

theorem decode_isReserved_iff_isReservedNumber {w : CommandWord} {host : List Byte} :
    (∃ why, decode w host = .reserved why) ↔ IsReservedNumber w.toNat := by
  rw [Encoding.decode_reserved_iff, decode_isOperation_iff_not_isReservedNumber, not_not]

/-- Settles O6: the reserved numbers are exactly the words that decode to no operation, and such a word is answered
ILLEGAL. -/
theorem reservedWordsAnswerIllegal : Obligations.ReservedWordsAnswerIllegal := fun _ _ _ hp hr =>
  ⟨fun hres => step_of_reserved hp hr (decode_isReserved_iff_isReservedNumber.mpr hres),
    decode_isOperation_iff_not_isReservedNumber.mpr⟩

/-! ### NOP and RESET -/

/-- NOP in every state (43_system.md R160). -/
theorem exec_nop_next (s : State) : exec .nop s = .next { s with out := statusOutputs .ok } := by
  rw [exec_nop, execNop, answer_eq]

/-- Settles O35: by the decoder at the word 0 and the answer of NOP. -/
theorem nopChangesNothing : Obligations.NopChangesNothing :=
  ⟨decode_eq_operation.mpr (by decide), exec_nop_next⟩

/-- RESET in every state is the reset values of the block with the status OK (43_system.md R161). -/
theorem exec_reset_next (s : State) :
    exec .reset s = .next { resetBlock s with out := statusOutputs .ok } := by
  rw [exec_reset, execReset, answer_eq]

/-- Settles O36: by the decoder at the word 0xF000, the step of a raised `rst`, and the answer of RESET. -/
theorem resetWritesEveryElement : Obligations.ResetWritesEveryElement :=
  ⟨decode_eq_operation.mpr (by decide), fun _ _ _ => step_of_rst, exec_reset_next⟩

end Sys2Proof.System
end

section
/-! Proofs about the command word and the event of a step: decode and encode are inverse (30_encoding.md R61 to R64), the
printed table (R62), and the operation that a step runs. -/

namespace Sys2Proof.Codec
open Sys2Proof.Machine

/-! ### Decode and encode -/

/-- The word of a format B operation carries its byte in bits 7:0 (30_encoding.md R61). -/
theorem dataField_eq_of_toNat {w : CommandWord} {d : Byte} {n : Nat} (hw : w.toNat = n * 256 + d.toNat) :
    dataField w = d := by
  have := d.isLt
  exact BitVec.eq_of_toNat_eq (by rw [dataField_toNat]; omega)

theorem decode_encode {i : Instr} (hi : i.wellFormed = true) : decode (encode i) (sideOperand i) = .operation i := by
  have hw := encode_toNat i hi
  rw [decode_eq_operation]
  cases i with
  | submit len host =>
    have hl : len ≤ 4095 := by simpa [Instr.wellFormed] using hi
    have hop : (0x1000 + len) / 4096 = 1 := by omega
    have harg : (0x1000 + len) % 4096 = len := by omega
    simp [hw, hop, harg, sideOperand]
  | crcByte d =>
    have hop : (0x4000 + d.toNat) / 256 = 0x40 := by have := d.isLt; omega
    simp [hw, hop, dataField_eq_of_toNat (n := 0x40) hw]
  | nmeaRx d =>
    have hop : (0x6000 + d.toNat) / 256 = 0x60 := by have := d.isLt; omega
    simp [hw, hop, dataField_eq_of_toNat (n := 0x60) hw]
  | _ => simp [hw]

/-- The event that presents an operation decodes to it (30_encoding.md R75). -/
theorem decode_event {i : Instr} (hi : i.wellFormed = true) : decode i.event.word i.event.host = .operation i :=
  decode_encode hi

/-- Settles O2: the number of the encoded word is the operation's number in `decode_eq_operation`. -/
theorem decodeOfEncodeIsTheOperation : Obligations.DecodeOfEncodeIsTheOperation := fun _ => decode_encode

/-- What a word decodes to is well formed, and a SUBMIT carries the side operand presented (30_encoding.md R63). -/
theorem wellFormed_of_decode {w : CommandWord} {host : List Byte} {i : Instr} (h : decode w host = .operation i) :
    i.wellFormed = true ∧ ∀ len h, i = .submit len h → h = host := by
  obtain ⟨_, rfl⟩ | ⟨_, rfl⟩ | ⟨_, rfl⟩ | ⟨_, rfl⟩ | ⟨_, rfl⟩ | ⟨_, rfl⟩ | ⟨_, rfl⟩ | ⟨_, rfl⟩ :=
    decode_eq_operation.mp h
  case inr.inl =>
    have hl : w.toNat % 4096 ≤ 4095 := by omega
    exact ⟨by simp [Instr.wellFormed, hl], fun len h e => by cases e; rfl⟩
  all_goals exact ⟨rfl, fun _ _ e => by cases e⟩

theorem encode_of_decode {w : CommandWord} {host : List Byte} {i : Instr} (h : decode w host = .operation i) :
    encode i = w := by
  obtain ⟨hi, -⟩ := wellFormed_of_decode h
  apply BitVec.eq_of_toNat_eq
  rw [encode_toNat i hi]
  obtain ⟨hw, rfl⟩ | ⟨hw, rfl⟩ | ⟨hw, rfl⟩ | ⟨hw, rfl⟩ | ⟨hw, rfl⟩ | ⟨hw, rfl⟩ | ⟨hw, rfl⟩ | ⟨hw, rfl⟩ :=
    decode_eq_operation.mp h
  all_goals simp only [dataField_toNat]; omega

/-- Settles O3: the word's number fixes the operation, and the operation's number is that of its word. -/
theorem encodeOfDecodeIsTheWord : Obligations.EncodeOfDecodeIsTheWord := fun _ _ _ h =>
  ⟨encode_of_decode h, wellFormed_of_decode h⟩

/-- Settles O1: by the decoder at each of the twelve words. -/
theorem specWordsDecode : Obligations.SpecWordsDecode :=
  ⟨rfl, rfl, rfl, rfl, rfl, rfl, rfl, rfl, rfl, rfl, rfl, rfl⟩

/-! ### The printed table -/

/-- The word of every well-formed operation is of exactly the rows that bear its mnemonic (30_encoding.md R62). -/
theorem rowMatch (i : Instr) : Laws.RowMatch.Statement i := by
  cases i with
  | nop => exact Laws.RowMatch.nop
  | submit len host => exact Laws.RowMatch.submit len host
  | tick => exact Laws.RowMatch.tick
  | crcInit => exact Laws.RowMatch.crcInit
  | crcByte d => exact Laws.RowMatch.crcByte d
  | crcRead => exact Laws.RowMatch.crcRead
  | nmeaRx d => exact Laws.RowMatch.nmeaRx d
  | reset => exact Laws.RowMatch.reset

theorem covers_iff_of_decode {w : CommandWord} {host : List Byte} {i : Instr} (h : decode w host = .operation i) :
    ∀ r ∈ opcodeTable, (r.covers w = true ↔ r.mnemonic = i.mnemonic) := by
  have := rowMatch i (wellFormed_of_decode h).1
  rwa [encode_of_decode h] at this

/-- Every operation has its row in the table (30_encoding.md R62). -/
theorem exists_row (i : Instr) : ∃ r ∈ opcodeTable, r.mnemonic = i.mnemonic := by
  cases i <;> simp [opcodeTable, Instr.mnemonic]

/-- Where a row's mask is all ones on a field, the words of the row have the match's value in that field. -/
theorem extractLsb'_eq_of_covers {r : OpcodeRow} {w : CommandWord} (hr : r.covers w = true) (lo n : Nat)
    (hm : r.mask.extractLsb' lo n = BitVec.allOnes n) : w.extractLsb' lo n = r.word.extractLsb' lo n := by
  have hw : w &&& r.mask = r.word := by simpa [OpcodeRow.covers] using hr
  rw [← hw, BitVec.extractLsb'_and, hm, BitVec.and_allOnes]

/-- The three formats of the rows (30_encoding.md R61): Z fixes every bit, L the `op`, B the upper byte. -/
theorem row_formats : ∀ r ∈ opcodeTable,
    r.mask = 0xFFFF#16 ∧ r.word.toNat ∈ [0, 0x2000, 0x3000, 0x5000, 0xF000] ∨
    r.mask = 0xF000#16 ∧ r.word = 0x1000#16 ∨ r.mask = 0xFF00#16 ∧ r.word.toNat ∈ [0x4000, 0x6000] := by
  decide

/-- A word of a row is an operation: the field that the row fixes has the number of an operation. -/
theorem isOperation_of_covers {r : OpcodeRow} (hr : r ∈ opcodeTable) {w : CommandWord} (hc : r.covers w = true)
    (host : List Byte) : ∃ i, decode w host = .operation i := by
  have hfield := fun lo n hm => congrArg BitVec.toNat (extractLsb'_eq_of_covers hc lo n hm)
  simp only [BitVec.extractLsb'_toNat, Nat.shiftRight_eq_div_pow] at hfield
  have hw := w.isLt
  rw [Encoding.decode_isOperation_iff]
  have hformat := row_formats r hr
  simp only [List.mem_cons, List.not_mem_nil, or_false] at hformat
  obtain ⟨hmask, hword⟩ | ⟨hmask, hword⟩ | ⟨hmask, hword⟩ := hformat
  · have := hfield 0 16 (by rw [hmask]; decide)
    omega
  · have := hfield 12 4 (by rw [hmask]; decide)
    rw [hword] at this
    simp at this
    omega
  · have := hfield 8 8 (by rw [hmask]; decide)
    omega

/-- Settles O5: a covered word is an operation, and the word of an operation is of the rows that bear its mnemonic. -/
theorem decoderFollowsThePrintedTable : Obligations.DecoderFollowsThePrintedTable := by
  refine fun w host => ⟨fun r hr hc => ?_, fun i h => covers_iff_of_decode h, fun i h => ?_⟩
  · obtain ⟨i, hi⟩ := isOperation_of_covers hr hc host
    exact ⟨i, hi, ((covers_iff_of_decode hi r hr).mp hc).symm⟩
  · obtain ⟨r, hr, hm⟩ := exists_row i
    exact ⟨r, hr, (covers_iff_of_decode h r hr).mpr hm⟩

/-! ### The operation that a step runs -/

/-- An event that carries an operation's word is the step of that operation (00_scope.md R6). -/
theorem step_of_decode {s : State} {e : Event} {es : List Event} {i : Instr} (hp : s.pending = e :: es)
    (hr : e.rst = false) (hw : decode e.word e.host = .operation i) : step s = exec i { s with pending := es } := by
  simp only [step, System.nextEvent_eq hp, System.dropEvent_eq hp, hr, hw, Bool.false_eq_true, if_false]

/-- An operation presented by its own event is run (30_encoding.md R75). -/
theorem step_event {i : Instr} (hi : i.wellFormed = true) (s : State) (es : List Event) :
    step { s with pending := i.event :: es } = exec i { s with pending := es } :=
  step_of_decode rfl rfl (decode_event hi)

/-- The decoder of the table reads the word with a zero `HOST` (log 13). -/
theorem decode_of_decodeTableWord {w : Nat} {i : Instr} (h : decodeTableWord 16 w = some i) :
    w % 2 ^ 16 = w ∧ decode (tableEvent w).word (tableEvent w).host = .operation i := by
  unfold decodeTableWord at h
  split at h
  case isFalse => cases h
  case isTrue hw =>
    refine ⟨Nat.mod_eq_of_lt hw.2, ?_⟩
    split at h
    next j hj => cases h; exact hj
    next => cases h

/-- Settles O7: each event carries a word that decodes to the operation. -/
theorem stepRunsTheDecodedOperation : Obligations.StepRunsTheDecodedOperation := by
  refine ⟨fun _ _ _ _ => step_of_decode, fun s i hi => step_event hi s s.pending, fun s w i h => ?_⟩
  obtain ⟨hmod, hw⟩ := decode_of_decodeTableWord h
  rw [State.withFetchWord, hmod]
  exact step_of_decode (s := setPending (tableEvent w :: s.pending) s) rfl rfl hw

/-- Settles O8: the event that an empty queue presents is that of NOP. -/
theorem stepWithoutEventIsNop : Obligations.StepWithoutEventIsNop := by
  intro s hp
  have hnext : nextEvent s = Instr.nop.event := by rw [nextEvent, hp]
  have hdrop : dropEvent s = s := by rw [dropEvent, hp, List.tail_nil, setPending, ← hp]
  have hdec := decode_event (i := .nop) rfl
  have hrst : Instr.nop.event.rst = false := rfl
  simp only [step, hnext, hdrop, hrst, hdec, Bool.false_eq_true, if_false]

end Sys2Proof.Codec
end

section
/-! Proofs about what the operations of one unit leave alone: every operation but RESET is a function of its own unit's
group of state (10_state.md R10), so it keeps the other groups and commutes with the operations of the other units
(20_memory.md R53). -/

namespace Sys2Proof.Units
open Sys2Proof.Machine

/-! ### The group of a unit put into another state -/

/-- The parameters and the group of unit `u` from `s`, everything else from `r`. -/
def graft (u : BlockUnit) (s r : State) : State :=
  match u with
  | .modem => { r with
      params := s.params, line := s.line, txBuf := s.txBuf, txLen := s.txLen, txCharIndex := s.txCharIndex
      txBitPhase := s.txBitPhase, txActive := s.txActive }
  | .checksum => { r with params := s.params, crc := s.crc }
  | .ingest => { r with
      params := s.params, rxState := s.rxState, rxCsCount := s.rxCsCount, rxBuf := s.rxBuf, rxIndex := s.rxIndex
      gpsSnapshot := s.gpsSnapshot }
  | .system => { r with params := s.params }

/-- What a step of unit `u` that ends in `t` makes of the state `r`: the group of `u` and the outputs. -/
def carry (u : BlockUnit) (r t : State) : State := setOut t.out (graft u t r)

/-- The two states agree on the group of the unit. -/
def SameGroup (u : BlockUnit) (s t : State) : Prop :=
  match u with
  | .modem => SameModem s t
  | .checksum => SameChecksum s t
  | .ingest => SameIngest s t
  | .system => True

/-- An answer with another next state. -/
def mapNext (f : State → State) : Answer → Answer
  | .next s => .next (f s)
  | .fault q => .fault q
  | .refused q => .refused q

theorem mapNext_eq_next {f : State → State} {a : Answer} {t : State} (h : mapNext f a = .next t) :
    ∃ s, a = .next s ∧ t = f s := by
  cases a with
  | next s => cases h; exact ⟨s, rfl, rfl⟩
  | fault q => cases h
  | refused q => cases h

theorem graft_self (u : BlockUnit) (s : State) : graft u s s = s := by
  cases u <;> rfl

theorem graft_eq_of_sameGroup {u : BlockUnit} {s t : State} (hp : t.params = s.params) (h : SameGroup u s t) :
    graft u s t = t := by
  cases u with
  | modem =>
    obtain ⟨hline, hbuf, hlen, hchar, hphase, hactive⟩ := h
    simp only [graft, ← hp, ← hline, ← hbuf, ← hlen, ← hchar, ← hphase, ← hactive]
  | checksum =>
    have hcrc : t.crc = s.crc := h
    simp only [graft, ← hp, ← hcrc]
  | ingest =>
    obtain ⟨hstate, hcount, hbuf, hindex, hgps⟩ := h
    simp only [graft, ← hp, ← hstate, ← hcount, ← hbuf, ← hindex, ← hgps]
  | system => simp only [graft, ← hp]

theorem sameGroup_carry {u v : BlockUnit} (h : u ≠ v) (r t : State) : SameGroup v r (carry u r t) := by
  cases v with
  | modem =>
    cases u with
    | modem => exact absurd rfl h
    | _ => exact ⟨rfl, rfl, rfl, rfl, rfl, rfl⟩
  | checksum =>
    cases u with
    | checksum => exact absurd rfl h
    | _ => rfl
  | ingest =>
    cases u with
    | ingest => exact absurd rfl h
    | _ => exact ⟨rfl, rfl, rfl, rfl, rfl⟩
  | system => trivial

/-- The groups of two different units are put in in either order. -/
theorem carry_carry_comm {u v : BlockUnit} (h : u ≠ v) {a b : State} (hp : a.params = b.params) (r : State) (o : Outputs) :
    setOut o (carry v (carry u r a) b) = setOut o (carry u (carry v r b) a) := by
  cases u <;> cases v <;> simp [carry, graft, setOut, hp] at h ⊢

/-! ### Each operation reads and writes its own group -/

section
variable (s r : State)

@[simp] theorem graft_params (u : BlockUnit) : (graft u s r).params = s.params := by cases u <;> rfl
@[simp] theorem graft_modem_txActive : (graft .modem s r).txActive = s.txActive := rfl
@[simp] theorem graft_checksum_crc : (graft .checksum s r).crc = s.crc := rfl
@[simp] theorem graft_ingest_rxState : (graft .ingest s r).rxState = s.rxState := rfl
@[simp] theorem graft_ingest_rxCsCount : (graft .ingest s r).rxCsCount = s.rxCsCount := rfl
@[simp] theorem graft_ingest_rxIndex : (graft .ingest s r).rxIndex = s.rxIndex := rfl

theorem execSubmit_graft (len : Nat) (host : List Byte) :
    execSubmit len host (graft .modem s r) = mapNext (carry .modem r) (execSubmit len host s) := by
  simp only [execSubmit, graft_modem_txActive, graft_params]
  split_ifs
  · rfl
  · rfl
  · rfl
  · cases hostRead host len <;> rfl

theorem advanceSequencer_graft : advanceSequencer (graft .modem s r) = graft .modem (advanceSequencer s) r := by
  obtain hp | hp : s.txBitPhase < 10 ∨ 10 ≤ s.txBitPhase := by omega
  · rw [advanceSequencer_bit hp, advanceSequencer_bit (s := graft .modem s r) hp]
    rfl
  obtain hn | hn : s.txCharIndex + 1 < s.txLen ∨ s.txLen ≤ s.txCharIndex + 1 := by omega
  · rw [advanceSequencer_char hp hn, advanceSequencer_char (s := graft .modem s r) hp hn]
    rfl
  · rw [advanceSequencer_last hp hn, advanceSequencer_last (s := graft .modem s r) hp hn]
    rfl

theorem execTick_graft : execTick (graft .modem s r) = mapNext (carry .modem r) (execTick s) := by
  have hread : readByte .tx (graft .modem s r).txCharIndex (graft .modem s r) = readByte .tx s.txCharIndex s := rfl
  simp only [execTick, graft_modem_txActive, hread]
  split_ifs
  · cases readByte .tx s.txCharIndex s with
    | error f => rfl
    | ok c =>
      have hadvance := advanceSequencer_graft (setLine (drivenLevel c s.txBitPhase s.line) s) r
      exact congrArg (answer .ok) hadvance
  · rfl

theorem execCrcByte_graft (b : Byte) :
    execCrcByte b (graft .checksum s r) = mapNext (carry .checksum r) (execCrcByte b s) := by
  rw [execCrcByte, execCrcByte, graft_checksum_crc]
  cases s.crc <;> rfl

theorem execCrcRead_graft : execCrcRead (graft .checksum s r) = mapNext (carry .checksum r) (execCrcRead s) := by
  rw [execCrcRead, execCrcRead, graft_checksum_crc]
  cases s.crc <;> rfl

theorem readBytes_graft (a n : Nat) : readBytes .rx a (graft .ingest s r) n = readBytes .rx a s n := by
  have hread (a : Nat) : readByte .rx a (graft .ingest s r) = readByte .rx a s := rfl
  induction n generalizing a with
  | zero => rfl
  | succ n ih => rw [readBytes, readBytes, hread, ih]

theorem dispatchLine_graft : dispatchLine (graft .ingest s r) = mapNext (carry .ingest r) (dispatchLine s) := by
  rw [dispatchLine, dispatchLine, readBytes_graft, graft_ingest_rxIndex, graft_params]
  cases readBytes .rx 0 s s.rxIndex with
  | error f => rfl
  | ok l => dsimp only; split_ifs <;> rfl

/-- `append` in the state with the group put in: the same fault, or the same store. -/
theorem appendByte_graft (b : Byte) :
    appendByte b (graft .ingest s r) = (appendByte b s).map fun t => graft .ingest t r := by
  have hindex : (appendIndex (graft .ingest s r) < spaceSize (graft .ingest s r) .rx) =
      (appendIndex s < spaceSize s .rx) := rfl
  unfold appendByte
  by_cases h : appendIndex s < spaceSize s .rx
  · rw [if_pos h, if_pos (hindex ▸ h)]
    rfl
  · rw [if_neg h, if_neg (hindex ▸ h)]
    rfl

theorem takeStart_graft (b : Byte) : takeStart b (graft .ingest s r) = mapNext (carry .ingest r) (takeStart b s) := by
  have hcapture : setCapture .capturing 0 (setLineBuffer (graft .ingest s r).rxBuf 0 (graft .ingest s r)) =
    graft .ingest (setCapture .capturing 0 (setLineBuffer s.rxBuf 0 s)) r := rfl
  rw [takeStart, takeStart, hcapture, appendByte_graft]
  cases appendByte b (setCapture .capturing 0 (setLineBuffer s.rxBuf 0 s)) <;> rfl

theorem takeBody_graft (b : Byte) : takeBody b (graft .ingest s r) = mapNext (carry .ingest r) (takeBody b s) := by
  rw [takeBody, takeBody, appendByte_graft]
  cases appendByte b s with
  | error f => rfl
  | ok t => dsimp only [Except.map]; split_ifs <;> rfl

theorem takeWindow_graft (b : Byte) :
    takeWindow b (graft .ingest s r) = mapNext (carry .ingest r) (takeWindow b s) := by
  rw [takeWindow, takeWindow, appendByte_graft]
  cases appendByte b s with
  | error f => rfl
  | ok t =>
    dsimp only [Except.map]
    rw [graft_ingest_rxCsCount]
    split_ifs
    · rfl
    · exact dispatchLine_graft t r

theorem execNmeaRx_graft (b : Byte) :
    execNmeaRx b (graft .ingest s r) = mapNext (carry .ingest r) (execNmeaRx b s) := by
  rw [execNmeaRx, execNmeaRx, graft_ingest_rxState]
  split_ifs
  · exact takeStart_graft s r b
  · cases s.rxState with
    | awaitStart => rfl
    | capturing => exact takeBody_graft s r b
    | inChecksum => exact takeWindow_graft s r b

/-- Every operation but RESET is a function of its unit's group: in a state that has the group from `s` it answers as in
`s`, and every other group stays. -/
theorem exec_graft {i : Instr} (hi : i ≠ .reset) :
    exec i (graft (unitOf i) s r) = mapNext (carry (unitOf i) r) (exec i s) := by
  cases i with
  | nop => rfl
  | submit len host => exact execSubmit_graft s r len host
  | tick => exact execTick_graft s r
  | crcInit => rfl
  | crcByte b => exact execCrcByte_graft s r b
  | crcRead => exact execCrcRead_graft s r
  | nmeaRx b => exact execNmeaRx_graft s r b
  | reset => exact absurd rfl hi

end

/-! ### What an operation leaves unchanged -/

section
variable {i : Instr} {s t : State} (h : exec i s = .next t)
include h

/-- No operation writes the parameters or takes an event (10_state.md R10, R32). -/
theorem exec_params_pending : t.params = s.params ∧ t.pending = s.pending := by
  cases i with
  | nop => cases h; exact ⟨rfl, rfl⟩
  | submit len host => obtain ⟨_, rfl⟩ | ⟨_, _, rfl⟩ | ⟨_, _, _, _, rfl⟩ := execSubmit_cases h <;> exact ⟨rfl, rfl⟩
  | tick =>
    obtain ⟨_, rfl⟩ | ⟨_, _, _, _, ⟨_, rfl⟩ | ⟨_, _, rfl⟩ | ⟨_, _, rfl⟩⟩ := execTick_cases h <;> exact ⟨rfl, rfl⟩
  | crcInit => cases h; exact ⟨rfl, rfl⟩
  | crcByte b => obtain ⟨_, _, rfl⟩ := execCrcByte_cases h; exact ⟨rfl, rfl⟩
  | crcRead => obtain ⟨_, _, rfl⟩ := execCrcRead_cases h; exact ⟨rfl, rfl⟩
  | nmeaRx b =>
    obtain ⟨_, _, rfl⟩ | ⟨_, _, rfl⟩ | ⟨_, _, _, ⟨_, rfl⟩ | ⟨_, rfl⟩⟩ | ⟨_, _, _, ⟨_, rfl⟩ | ⟨_, _, _, _, rfl⟩⟩ :=
      execNmeaRx_cases h <;> exact ⟨rfl, rfl⟩
  | reset => cases h; exact ⟨rfl, rfl⟩

variable (hi : i ≠ .reset)
include hi

/-- A step is the carry of its own result: it writes its group and the outputs, and nothing else (10_state.md R10). -/
theorem eq_carry_of_exec : t = carry (unitOf i) s t := by
  have hg := exec_graft s s hi
  rw [graft_self, h] at hg
  exact Host.Outcome.next.inj hg

theorem exec_sameGroup {v : BlockUnit} (hv : unitOf i ≠ v) : SameGroup v s t := by
  have hsame := sameGroup_carry hv s t
  rwa [← eq_carry_of_exec h hi] at hsame

end

/-- Two completed operations of different units can be exchanged (20_memory.md R53): the second does not see what the
first wrote, and the groups that they write do not overlap. -/
theorem exec_comm {i j : Instr} {s s₁ s₂ : State} (hi : i ≠ .reset) (hj : j ≠ .reset) (hu : unitOf i ≠ unitOf j)
    (h₁ : exec i s = .next s₁) (h₂ : exec j s₁ = .next s₂) :
    ∃ t₁, exec j s = .next t₁ ∧ s₂ = carry (unitOf j) s₁ t₁ ∧ exec i t₁ = .next (carry (unitOf i) t₁ s₁) := by
  have hsecond := exec_graft s s₁ hj
  rw [graft_eq_of_sameGroup (exec_params_pending h₁).1 (exec_sameGroup h₁ hi hu), h₂] at hsecond
  obtain ⟨t₁, ht₁, hs₂⟩ := mapNext_eq_next hsecond.symm
  have hfirst := exec_graft s t₁ hi
  rw [graft_eq_of_sameGroup (exec_params_pending ht₁).1 (exec_sameGroup ht₁ hj hu.symm), h₁] at hfirst
  exact ⟨t₁, ht₁, hs₂, hfirst⟩

/-- Settles O41: each of the two operations answers in the other order as it did, and both orders put the same two groups
into the state before them. -/
theorem stepsOfDifferentUnitsCommute : Obligations.StepsOfDifferentUnitsCommute := by
  intro s s₁ s₂ i j hi hj hu h₁ h₂
  obtain ⟨t₁, ht₁, hs₂, ht₂⟩ := exec_comm hi hj hu h₁ h₂
  have hparams : s₁.params = t₁.params := (exec_params_pending h₁).1.trans (exec_params_pending ht₁).1.symm
  have hcomm := carry_carry_comm hu hparams s s₂.out
  rw [← eq_carry_of_exec h₁ hi, ← eq_carry_of_exec ht₁ hj, ← hs₂] at hcomm
  refine ⟨t₁, _, ht₁, ht₂, ?_, rfl, hcomm⟩
  rw [hs₂]; rfl

/-- The byte of the line buffer that NMEA_RX stores is the one before the new capture index (10_state.md R22, R23). -/
theorem execNmeaRx_rxBuf {b : Byte} {s t : State} (h : execNmeaRx b s = .next t) {a : Nat}
    (ha : memLookup t.rxBuf a ≠ memLookup s.rxBuf a) : t.rxIndex = a + 1 := by
  have hstore {m : Memory} {k : Nat} (ha : memLookup (memStore k [b] m) a ≠ memLookup m a) : k + 1 = a + 1 := by
    by_contra hk
    rw [memLookup_memStore_one, if_neg (by omega)] at ha
    exact ha rfl
  obtain ⟨_, _, rfl⟩ | ⟨_, _, rfl⟩ | ⟨_, _, _, ⟨_, rfl⟩ | ⟨_, rfl⟩⟩ | ⟨_, _, _, ⟨_, rfl⟩ | ⟨_, _, _, _, rfl⟩⟩ :=
    execNmeaRx_cases h
  · exact absurd rfl ha
  all_goals exact hstore ha

/-- TICK writes neither the content nor the length of the slot (10_state.md R13, R14). -/
theorem execTick_slot {s t : State} (h : execTick s = .next t) : t.txBuf = s.txBuf ∧ t.txLen = s.txLen := by
  obtain ⟨_, rfl⟩ | ⟨_, _, _, _, ⟨_, rfl⟩ | ⟨_, _, rfl⟩ | ⟨_, _, rfl⟩⟩ := execTick_cases h <;> exact ⟨rfl, rfl⟩

/-- SUBMIT does not drive the line (40_modem.md R91). -/
theorem execSubmit_line {len : Nat} {host : List Byte} {s t : State} (h : execSubmit len host s = .next t) :
    t.line = s.line := by
  obtain ⟨_, rfl⟩ | ⟨_, _, rfl⟩ | ⟨_, _, _, _, rfl⟩ := execSubmit_cases h <;> rfl

/-- No operation but TICK and RESET writes `line` (10_state.md R12). -/
theorem exec_line {i : Instr} {s t : State} (h : exec i s = .next t) (hi : i ≠ .reset) (ht : i ≠ .tick) :
    t.line = s.line := by
  by_cases hu : unitOf i = .modem
  · cases i with
    | submit len host => exact execSubmit_line h
    | tick => exact absurd rfl ht
    | _ => cases hu
  · exact (exec_sameGroup h hi hu).1

/-- No operation but NMEA_RX and RESET writes the line buffer, and NMEA_RX writes one byte of it (10_state.md R22). -/
theorem exec_rxBuf {i : Instr} {s t : State} (h : exec i s = .next t) (hi : i ≠ .reset) {a : Nat}
    (ha : memLookup t.rxBuf a ≠ memLookup s.rxBuf a) : t.rxIndex = a + 1 := by
  by_cases hu : unitOf i = .ingest
  · cases i with
    | nmeaRx b => exact execNmeaRx_rxBuf h ha
    | _ => cases hu
  · obtain ⟨_, _, hbuf, _⟩ := exec_sameGroup h hi hu
    exact absurd (by rw [hbuf]) ha

/-- Settles O40: the group of an operation's unit is all that it writes, and inside the group each element has its
lemma. -/
theorem eachElementHasItsWriters : Obligations.EachElementHasItsWriters := by
  intro s t i h
  obtain ⟨hparams, hpending⟩ := exec_params_pending h
  refine ⟨hparams, hpending, fun hi => ⟨exec_sameGroup h hi, exec_sameGroup h hi, exec_sameGroup h hi, exec_line h hi,
    ?tick, ?crcRead, fun a => exec_rxBuf h hi⟩⟩
  case tick =>
    rintro rfl
    exact execTick_slot h
  case crcRead =>
    rintro rfl
    obtain ⟨_, _, rfl⟩ := execCrcRead_cases h
    rfl

/-! ### The active slot, and the steps that report an error -/

/-- Settles O14: of the operations of unit A, TICK does not write the slot and SUBMIT is answered BUSY. -/
theorem activeSlotIsNotRewritten : Obligations.ActiveSlotIsNotRewritten := by
  intro s t i ha h hi
  by_cases hu : unitOf i = .modem
  · cases i with
    | submit len host =>
      cases (execSubmit_busy ha).symm.trans h
      exact ⟨rfl, rfl, fun _ => ⟨rfl, rfl, rfl, rfl, rfl, rfl⟩⟩
    | tick =>
      obtain ⟨hbuf, hlen⟩ := execTick_slot h
      exact ⟨hbuf, hlen, fun ht => absurd rfl ht⟩
    | _ => cases hu
  · have hsame : SameModem s t := exec_sameGroup h hi hu
    have ⟨_, hbuf, hlen, _⟩ := hsame
    exact ⟨hbuf, hlen, fun _ => hsame⟩

/-- A SUBMIT that does not answer OK changes no state (60_exceptions.md R171). -/
theorem execSubmit_error {len : Nat} {host : List Byte} {s t : State} (h : execSubmit len host s = .next t)
    (ht : t.out.status ≠ .ok) : t = { s with out := t.out } := by
  obtain ⟨_, rfl⟩ | ⟨_, _, rfl⟩ | ⟨_, _, _, _, rfl⟩ := execSubmit_cases h
  · rfl
  · rfl
  · exact absurd rfl ht

/-- No operation but CRC_READ gives a value on `dout` (10_state.md R26). -/
theorem exec_dout {i : Instr} {s t : State} (h : exec i s = .next t) (hi : i ≠ .crcRead) : t.out.dout = 0#16 := by
  cases i with
  | nop => cases h; rfl
  | submit len host => obtain ⟨_, rfl⟩ | ⟨_, _, rfl⟩ | ⟨_, _, _, _, rfl⟩ := execSubmit_cases h <;> rfl
  | tick => obtain ⟨_, rfl⟩ | ⟨_, _, _, _, ⟨_, rfl⟩ | ⟨_, _, rfl⟩ | ⟨_, _, rfl⟩⟩ := execTick_cases h <;> rfl
  | crcInit => cases h; rfl
  | crcByte b => obtain ⟨_, _, rfl⟩ := execCrcByte_cases h; rfl
  | crcRead => exact absurd rfl hi
  | nmeaRx b =>
    obtain ⟨_, _, rfl⟩ | ⟨_, _, rfl⟩ | ⟨_, _, _, ⟨_, rfl⟩ | ⟨_, rfl⟩⟩ | ⟨_, _, _, ⟨_, rfl⟩ | ⟨_, _, _, _, rfl⟩⟩ :=
      execNmeaRx_cases h <;> rfl
  | reset => cases h; rfl

/-- Settles O39: only SUBMIT reports an error, and then changes nothing. -/
theorem errorReportsChangeNothing : Obligations.ErrorReportsChangeNothing := by
  refine fun s t i h => ⟨fun ht => ?_, exec_dout h⟩
  by_cases hi : ∃ len host, i = .submit len host
  · obtain ⟨len, host, rfl⟩ := hi
    exact execSubmit_error h ht
  · exact absurd (Encoding.exec_status_ok h fun len host e => hi ⟨len, host, e⟩) ht

end Sys2Proof.Units
end

section
/-! Proofs about what every step keeps: the invariants (10_state.md R18, R25), the rule of the markers (42_nmea.md R140),
and that no step faults (20_memory.md R43). -/

namespace Sys2Proof.Invariant
open Sys2Proof.Machine

/-! ### The invariants by unit -/

/-- The part of the invariants that speaks of unit A. -/
def TxOk (s : State) : Prop := s.txBuf.wf = true ∧ s.txBuf.within s.params.modemMaxLen = true ∧ ModemOk s

/-- The part of the invariants that speaks of unit B. -/
def RxOk (s : State) : Prop := s.rxBuf.wf = true ∧ s.rxBuf.within s.params.nmeaBufLen = true ∧ IngestOk s

theorem invariants_iff {s : State} : Invariants s ↔ ParamsOk s ∧ TxOk s ∧ RxOk s := by
  unfold TxOk RxOk Invariants BuffersOk
  tauto

section
variable {s t : State} (hp : t.params = s.params)
include hp

theorem TxOk.of_sameModem (h : TxOk s) (hs : SameModem s t) : TxOk t := by
  obtain ⟨hline, hbuf, hlen, hchar, hphase, hactive⟩ := hs
  unfold TxOk ModemOk
  rwa [hp, hline, hbuf, hlen, hchar, hphase, hactive]

theorem RxOk.of_sameIngest (h : RxOk s) (hs : SameIngest s t) : RxOk t := by
  obtain ⟨hstate, hcount, hbuf, hindex, _⟩ := hs
  unfold RxOk IngestOk
  rwa [hp, hstate, hcount, hbuf, hindex]

end

/-! ### Unit A keeps its part -/

/-- The copy of an accepted SUBMIT fills the slot (40_modem.md R90). -/
theorem execSubmit_keeps_txOk {len : Nat} {host : List Byte} {s t : State} (hs : TxOk s)
    (h : execSubmit len host s = .next t) : TxOk t := by
  obtain ⟨_, rfl⟩ | ⟨_, _, rfl⟩ | ⟨_, hmax, hpos, hhost, rfl⟩ := execSubmit_cases h
  · exact hs
  · exact hs
  · obtain ⟨hwf, hwithin, _⟩ := hs
    have hlen : (host.take len).length = len := List.length_take_of_le hhost
    refine ⟨memStore_wf 0 _ hwf, memStore_within 0 _ hwithin (by rwa [hlen, Nat.zero_add]), hmax,
      fun _ => ⟨hpos, hpos, Nat.zero_le _, fun a (ha : a < len) => ?_⟩, nofun, fun _ => nofun⟩
    rw [Modem.memLookup_slot hhost, if_pos ha, List.getElem?_eq_getElem (by omega)]
    rfl

/-- The last tick leaves the line at the level of the second stop bit, which is the default idle level (40_modem.md R97). -/
theorem execTick_keeps_txOk {s t : State} (hs : TxOk s) (h : execTick s = .next t) : TxOk t := by
  obtain ⟨hwf, hwithin, hmax, hact, hidle, hline⟩ := hs
  obtain ⟨ha, rfl⟩ | ⟨ha, c, _, _, ⟨hp, rfl⟩ | ⟨_, hn, rfl⟩ | ⟨hp, _, rfl⟩⟩ := execTick_cases h
  · exact ⟨hwf, hwithin, hmax, hact, hidle, fun _ _ => rfl⟩
  all_goals obtain ⟨hpos, hchar, hphase, hslot⟩ := hact ha
  · exact ⟨hwf, hwithin, hmax, fun _ => ⟨hpos, hchar, hp, hslot⟩, fun hf => by simp [ha] at hf,
      fun _ hf => by simp [ha] at hf⟩
  · exact ⟨hwf, hwithin, hmax, fun _ => ⟨hpos, hn, Nat.zero_le _, hslot⟩, fun hf => by simp [ha] at hf,
      fun _ hf => by simp [ha] at hf⟩
  · have hstop : drivenLevel c s.txBitPhase s.line = true := by
      rw [show s.txBitPhase = 10 by omega]; rfl
    exact ⟨hwf, hwithin, hmax, nofun, fun _ => ⟨rfl, rfl⟩, fun hlevel _ => hstop.trans hlevel.symm⟩

/-! ### Unit B keeps its part -/

/-- An append in a state with a captured part leaves a captured part in the buffer (42_nmea.md R135). -/
theorem captured_append {s : State} (hs : RxOk s) (b : Byte) {i : Nat} (hi : i < appendIndex s + 1) :
    (memLookup (memStore (appendIndex s) [b] s.rxBuf) i).isSome = true := by
  obtain ⟨_, _, _, hcap, _⟩ := hs
  rw [memLookup_memStore_one]
  split
  · rfl
  · have : appendIndex s ≤ s.rxIndex := by rw [appendIndex_eq]; split <;> omega
    exact hcap i (by omega)

theorem execNmeaRx_keeps_rxOk {b : Byte} {s t : State} (hs : RxOk s) (h : execNmeaRx b s = .next t) : RxOk t := by
  have hcap {i : Nat} := captured_append hs b (i := i)
  obtain ⟨hwf, hwithin, _, _, _, hcount, hcount1⟩ := id hs
  have hwf' (a : Nat) := memStore_wf a [b] hwf
  have hwithin' {a : Nat} (ha : a < s.params.nmeaBufLen) := memStore_within a [b] hwithin ha
  obtain ⟨_, _, rfl⟩ | ⟨rfl, hpos, rfl⟩ | ⟨_, hst, hidx, ⟨_, rfl⟩ | ⟨_, rfl⟩⟩ |
    ⟨_, _, hidx, ⟨_, rfl⟩ | ⟨_, _, _, _, rfl⟩⟩ := execNmeaRx_cases h
  · exact hs
  · refine ⟨hwf' 0, hwithin' hpos, hpos, fun i hi => ?_, fun _ => le_rfl, fun _ => rfl, Nat.zero_le _⟩
    obtain rfl : i = 0 := by simpa using hi
    simp [memLookup_memStore_one]
  · exact ⟨hwf' _, hwithin' hidx, hidx, fun i => hcap, fun _ => Nat.le_add_left _ _, hcount, hcount1⟩
  · exact ⟨hwf' _, hwithin' hidx, hidx, fun i => hcap, fun _ => Nat.le_add_left _ _, fun _ => rfl, Nat.zero_le _⟩
  · exact ⟨hwf' _, hwithin' hidx, hidx, fun i => hcap, fun _ => Nat.le_add_left _ _, fun hne => absurd rfl hne, le_rfl⟩
  · exact ⟨hwf' _, hwithin' hidx, hidx, fun i => hcap, fun _ => Nat.le_add_left _ _, fun _ => rfl, Nat.zero_le _⟩

/-! ### Every operation and every step keeps the invariants -/

theorem resetBlock_invariants {s : State} (hs : ParamsOk s) : Invariants (resetBlock s) :=
  invariants_iff.mpr ⟨hs, ⟨rfl, rfl, Nat.zero_le _, nofun, fun _ => ⟨rfl, rfl⟩, fun _ _ => rfl⟩,
    ⟨rfl, rfl, Nat.zero_le _, nofun, fun hne => absurd rfl hne, fun _ => rfl, Nat.zero_le _⟩⟩

theorem exec_keeps_invariants {i : Instr} {s t : State} (hs : Invariants s) (h : exec i s = .next t) : Invariants t := by
  obtain ⟨hparams, htx, hrx⟩ := invariants_iff.mp hs
  by_cases hi : i = .reset
  · subst hi
    cases h
    exact resetBlock_invariants hparams
  · obtain ⟨hp, -⟩ := Units.exec_params_pending h
    refine invariants_iff.mpr ⟨by rwa [ParamsOk, hp], ?_, ?_⟩
    · by_cases hu : unitOf i = .modem
      · cases i with
        | submit len host => exact execSubmit_keeps_txOk htx h
        | tick => exact execTick_keeps_txOk htx h
        | _ => cases hu
      · exact htx.of_sameModem hp (Units.exec_sameGroup h hi hu)
    · by_cases hu : unitOf i = .ingest
      · cases i with
        | nmeaRx b => exact execNmeaRx_keeps_rxOk hrx h
        | _ => cases hu
      · exact hrx.of_sameIngest hp (Units.exec_sameGroup h hi hu)

/-- What a predicate needs to be kept by every step: it speaks of the state of the block alone, and every operation keeps
it. A step takes its event, and then answers a reserved word or is an operation. -/
theorem step_keeps {P : State → Prop} (hpending : ∀ s es, P s → P (setPending es s)) (hout : ∀ s o, P s → P (setOut o s))
    (hexec : ∀ i s t, P s → exec i s = .next t → P t) {s t : State} (hs : P s) (h : step s = .next t) : P t := by
  obtain ⟨_, hstep⟩ | ⟨_, i, hstep⟩ := Encoding.step_cases s
  · rw [hstep] at h
    cases h
    exact hout _ _ (hpending _ _ hs)
  · exact hexec i _ t (hpending _ _ hs) (hstep ▸ h)

/-- Settles O42: every operation keeps the parts of the two units, and a step is an operation or writes no element. -/
theorem stepKeepsInvariants : Obligations.StepKeepsInvariants := fun _ _ hs h =>
  step_keeps (fun _ _ => id) (fun _ _ => id) (fun _ _ _ => exec_keeps_invariants) hs h

/-! ### The markers in the captured part -/

theorem markersOk_of_sameIngest {s t : State} (h : MarkersOk s) (hs : SameIngest s t) : MarkersOk t := by
  obtain ⟨hstate, hcount, hbuf, hindex, _⟩ := hs
  unfold MarkersOk
  rwa [hstate, hcount, hbuf, hindex]

/-- An append of a byte that is not `v` to a captured part that does not hold `v` from index `k` on. -/
theorem append_avoids {s : State} {b v : Byte} {k : Nat} (hb : b ≠ v)
    (h : ∀ i, i < s.rxIndex → k ≤ i → memLookup s.rxBuf i ≠ some v) :
    ∀ i, i < appendIndex s + 1 → k ≤ i → memLookup (memStore (appendIndex s) [b] s.rxBuf) i ≠ some v := by
  intro i hi hk
  rw [memLookup_memStore_one]
  split
  · simpa using hb
  · have : appendIndex s ≤ s.rxIndex := by rw [appendIndex_eq]; split <;> omega
    exact h i (by omega) hk

theorem execNmeaRx_keeps_markers {b : Byte} {s t : State} (hm : MarkersOk s) (h : execNmeaRx b s = .next t) :
    MarkersOk t := by
  obtain ⟨hstart, hcs, hwindow⟩ := id hm
  obtain ⟨_, _, rfl⟩ | ⟨rfl, hpos, rfl⟩ | ⟨hb, hst, hidx, ⟨hc, rfl⟩ | ⟨rfl, rfl⟩⟩ |
    ⟨hb, hst, hidx, ⟨hc, rfl⟩ | ⟨_, _, _, _, rfl⟩⟩ := execNmeaRx_cases h
  · exact hm
  · refine ⟨fun _ i hi hk => by simp only at hi; omega, fun _ i hi => ?_, nofun⟩
    obtain rfl : i = 0 := by simpa using hi
    simp [memLookup_memStore_one]
  · refine ⟨fun _ => append_avoids hb (hstart (by simp [hst])), fun _ i hi => ?_, fun hf => by simp [hst] at hf⟩
    exact append_avoids (k := 0) hc (fun i hi _ => hcs hst i hi) i hi (Nat.zero_le i)
  · refine ⟨fun _ => append_avoids hb (hstart (by simp [hst])), nofun, fun _ _ => ?_⟩
    simp [memLookup_memStore_one]
  · refine ⟨fun _ => append_avoids hb (hstart (by simp [hst])), nofun, fun _ (hi : 2 ≤ appendIndex s + 1) => ?_⟩
    have hidx' : appendIndex s = s.rxIndex := by
      rw [appendIndex_eq] at hi ⊢
      split at hi <;> simp_all
    have hmark := hwindow hst (by omega)
    rw [hc, Nat.sub_zero] at hmark
    simp only [hidx', memLookup_memStore_one]
    rw [if_neg (by omega)]
    exact hmark
  · exact ⟨fun hf => absurd rfl hf, nofun, nofun⟩

theorem exec_keeps_markers {i : Instr} {s t : State} (hm : MarkersOk s) (h : exec i s = .next t) : MarkersOk t := by
  by_cases hi : i = .reset
  · subst hi
    cases h
    exact ⟨fun hf => absurd rfl hf, nofun, nofun⟩
  by_cases hu : unitOf i = .ingest
  · cases i with
    | nmeaRx b => exact execNmeaRx_keeps_markers hm h
    | _ => cases hu
  · exact markersOk_of_sameIngest hm (Units.exec_sameGroup h hi hu)

/-- Settles O43: NMEA_RX keeps the rule at every store, wrapped or not, and the other operations leave the buffer. -/
theorem stepKeepsMarkers : Obligations.StepKeepsMarkers := fun _ _ _ hm h =>
  step_keeps (fun _ _ => id) (fun _ _ => id) (fun _ _ _ => exec_keeps_markers) hm h

/-- Settles O37: the state after reset is the one that RESET leaves. -/
theorem resetStateMeetsInvariants : Obligations.ResetStateMeetsInvariants :=
  ⟨resetBlock_invariants (s := State.reset) ⟨by decide, by decide, by decide⟩,
    ⟨fun hf => absurd rfl hf, nofun, nofun⟩, rfl⟩

/-! ### No step faults -/

/-- SUBMIT is refused exactly on the lengths of 40_modem.md R92, and completes on all others. -/
theorem execSubmit_answers (len : Nat) (host : List Byte) (s : State) :
    (RefusedInput (.submit len host) s ∧ ∃ r, execSubmit len host s = .refused r) ∨
    (¬ RefusedInput (.submit len host) s ∧ ∃ t, execSubmit len host s = .next t) := by
  by_cases ha : s.txActive = true
  · exact .inr ⟨fun ⟨hidle, _⟩ => by simp [ha] at hidle, _, execSubmit_busy ha⟩
  have ha : s.txActive = false := by simpa using ha
  by_cases hm : s.params.modemMaxLen < len
  · exact .inr ⟨fun ⟨_, hmax, _⟩ => by omega, _, Modem.execSubmit_tooLong ha hm⟩
  by_cases h0 : len = 0
  · subst h0
    exact .inl ⟨⟨ha, Nat.zero_le _, .inl rfl⟩, _, Modem.execSubmit_empty ha⟩
  by_cases hh : host.length < len
  · exact .inl ⟨⟨ha, by omega, .inr hh⟩, _, Modem.execSubmit_shortHost ha (by omega) h0 hh⟩
  · exact .inr ⟨fun ⟨_, _, hbad⟩ => by omega, _, execSubmit_accepted ha (by omega) (by omega) (by omega)⟩

/-- Under the invariants the character of an active slot exists, so TICK completes (20_memory.md R43). -/
theorem exists_execTick_next {s : State} (hs : Invariants s) : ∃ t, execTick s = .next t := by
  refine execTick_next fun ha => ?_
  obtain ⟨c, ⟨_, hi, hc⟩, _⟩ := Modem.exists_sending hs ha
  exact ⟨hi, by rw [hc]; rfl⟩

/-- Every operation is refused on the inputs that the spec refuses, and completes on all others. -/
theorem exec_answers (i : Instr) {s : State} (hs : Invariants s) :
    (RefusedInput i s ∧ ∃ r, exec i s = .refused r) ∨ (¬ RefusedInput i s ∧ ∃ t, exec i s = .next t) := by
  cases i with
  | nop => exact .inr ⟨id, _, rfl⟩
  | submit len host => exact execSubmit_answers len host s
  | tick => exact .inr ⟨id, exists_execTick_next hs⟩
  | crcInit => exact .inr ⟨id, _, rfl⟩
  | crcByte b =>
    cases hc : s.crc with
    | none => exact .inl ⟨hc, _, Checksum.exec_crcByte_noValue b hc⟩
    | some c => exact .inr ⟨fun hr : s.crc = none => by simp [hc] at hr, _, Checksum.exec_crcByte_next b hc⟩
  | crcRead =>
    cases hc : s.crc with
    | none => exact .inl ⟨hc, _, Checksum.exec_crcRead_noValue hc⟩
    | some c => exact .inr ⟨fun hr : s.crc = none => by simp [hc] at hr, _, Checksum.exec_crcRead_next hc⟩
  | nmeaRx b => exact .inr ⟨id, Ingest.exists_execNmeaRx_next hs b⟩
  | reset => exact .inr ⟨id, _, rfl⟩

theorem step_safe {s : State} (hs : Invariants s) : SafeAnswer (step s) := by
  obtain ⟨_, hstep⟩ | ⟨_, i, hstep⟩ := Encoding.step_cases s
  · rw [hstep]
    trivial
  · rw [hstep]
    obtain ⟨_, r, hr⟩ | ⟨_, t, ht⟩ := exec_answers i (s := dropEvent s) hs
    · rw [hr]; trivial
    · rw [ht]; trivial

/-- Settles O44: an operation answers in one of two ways, and the refused inputs decide which. -/
theorem onlyTheRefusedInputsStop : Obligations.OnlyTheRefusedInputsStop := by
  refine fun s hs => ⟨step_safe hs, fun i => ?_⟩
  obtain ⟨hr, r, he⟩ | ⟨hr, t, he⟩ := exec_answers i hs
  · simp [he, hr]
  · simp [he, hr]

end Sys2Proof.Invariant
end

section
/-! Proofs about whole transmissions of unit A: the order of a TICK and a SUBMIT ready together (60_exceptions.md R179),
and the 11·n bits of n characters (40_modem.md R98). -/

namespace Sys2Proof.Transmission
open Sys2Proof.Machine

/-! ### A TICK and a SUBMIT ready together -/

/-- A tick in the idle state or at the last bit of a transmission leaves the slot free (40_modem.md R95). -/
theorem execTick_leaves_idle {s : State} (hs : Invariants s)
    (hlast : s.txActive = true → s.txBitPhase = 10 ∧ s.txCharIndex + 1 = s.txLen) :
    ∃ t, exec .tick s = .next t ∧ t.txActive = false ∧ t.line = if s.txActive then true else s.params.idleLevel := by
  cases ha : s.txActive with
  | false => exact ⟨_, Modem.execTick_idle ha, ha, rfl⟩
  | true =>
    obtain ⟨hphase, hchar⟩ := hlast ha
    obtain ⟨c, hc, _⟩ := Modem.exists_sending hs ha
    exact ⟨_, Modem.execTick_last hc hphase hchar.ge, rfl, by rw [hphase]; rfl⟩

/-- The step of an acceptable SUBMIT on a free slot claims the slot and leaves the line (40_modem.md R90, R91). -/
theorem step_submit {s : State} {len : Nat} {host : List Byte} {es : List Event} (hs : Invariants s)
    (hp : s.pending = (Instr.submit len host).event :: es) (ha : s.txActive = false) (hpos : 1 ≤ len)
    (hmax : len ≤ s.params.modemMaxLen) (hhost : len ≤ host.length) :
    ∃ t, step s = .next t ∧ Invariants t ∧ t.pending = es ∧ t.out.status = .ok ∧ t.txActive = true ∧ t.txLen = len ∧
      t.txBitPhase = 0 ∧ t.line = s.line := by
  have hwf : (Instr.submit len host).wellFormed = true := by
    obtain ⟨⟨_, hlimit, _⟩, _⟩ := hs
    simpa [Instr.wellFormed] using (by omega : len ≤ 4095)
  have hstep := (Codec.step_of_decode hp rfl (Codec.decode_event hwf)).trans
    (execSubmit_accepted (s := { s with pending := es }) ha hmax hpos hhost)
  exact ⟨_, hstep, Invariant.stepKeepsInvariants _ _ hs hstep, rfl, rfl, rfl, rfl, rfl, rfl⟩

/-- The step of the tick after an accepted SUBMIT drives the start bit (40_modem.md R91). -/
theorem step_startBit {s : State} {es : List Event} (hs : Invariants s) (hp : s.pending = Instr.tick.event :: es)
    (ha : s.txActive = true) (hphase : s.txBitPhase = 0) :
    ∃ t, step s = .next t ∧ t.line = false ∧ t.txBitPhase = 1 ∧ t.pending = es := by
  obtain ⟨c, hc, _⟩ := Modem.exists_sending hs ha
  have hstep := (Codec.step_of_decode hp rfl (Codec.decode_event (i := .tick) rfl)).trans
    (Modem.execTick_bit (c := c) (s := { s with pending := es }) hc (by simp only; omega))
  exact ⟨_, hstep, by simp only [hphase]; rfl, by simp only [hphase], rfl⟩

/-- Settles O9: the three events are taken in the order of `arbitrate`, and each step leaves what the next one needs. -/
theorem tickIsHandledBeforeSubmit : Obligations.TickIsHandledBeforeSubmit := by
  intro s len host hs hpos hmax hhost hlast
  have hs' : Invariants { s with pending := [(Instr.submit len host).event, Instr.tick.event] } := hs
  obtain ⟨t, ht, hidle, hline⟩ := execTick_leaves_idle hs' hlast
  obtain ⟨hparams, hpending⟩ := Units.exec_params_pending ht
  obtain ⟨u, hu, hinv, hupending, hok, hactive, hlen, hphase, huline⟩ :=
    step_submit (Invariant.exec_keeps_invariants hs' ht) hpending hidle hpos (by rw [hparams]; exact hmax) hhost
  obtain ⟨v, hv, hlow, hvphase, hvpending⟩ := step_startBit hinv hupending hactive hphase
  exact ⟨t, u, v, (Codec.step_event rfl s _).trans ht, hu, hv, hidle, hline, hok, hactive, hlen, huline, hlow, hvphase,
    hvpending⟩

/-! ### The frames of n characters -/

/-- Bit number `k` of a transmission is bit `k mod 11` of the frame of character `k div 11` (30_encoding.md R68). -/
theorem transmission_getElem? {bytes : List Byte} {k : Nat} {c : Byte} (hc : bytes[k / 11]? = some c) :
    (transmission bytes)[k]? = (charFrame c)[k % 11]? := by
  induction bytes generalizing k with
  | nil => cases hc
  | cons b bs ih =>
    have hlen : (charFrame b).length = 11 := rfl
    rw [transmission, List.flatMap_cons, ← transmission]
    by_cases hk : k < 11
    · rw [Nat.div_eq_of_lt hk] at hc
      cases hc
      rw [List.getElem?_append_left (by omega), Nat.mod_eq_of_lt hk]
    · rw [Nat.div_eq_sub_div (by omega) (by omega), List.getElem?_cons_succ] at hc
      rw [List.getElem?_append_right (by omega), hlen, ih hc, Nat.mod_eq_sub_mod (by omega : k ≥ 11)]

/-- The transmission of `bytes` in the slot content `m`, after `k` of its ticks. -/
structure InFlight (bytes : List Byte) (m : Memory) (k : Nat) (s : State) : Prop where
  invariants : Invariants s
  active : s.txActive = true
  txBuf : s.txBuf = m
  txLen : s.txLen = bytes.length
  slot : ∀ a, a < bytes.length → memLookup m a = bytes[a]?
  char : s.txCharIndex = k / 11
  phase : s.txBitPhase = k % 11
  line : 0 < k → some s.line = (transmission bytes)[k - 1]?

section
variable {bytes : List Byte} {m : Memory} {k : Nat} {s t : State} (hs : InFlight bytes m k s)
include hs

/-- The tick drives the next bit of the frames (40_modem.md R98). -/
theorem InFlight.line_after_tick (h : exec .tick s = .next t) : some t.line = (transmission bytes)[k]? := by
  obtain ⟨_, _, ⟨_, hact, _⟩, _⟩ := hs.invariants
  obtain ⟨_, hchar, hphase, _⟩ := hact hs.active
  rw [hs.phase] at hphase
  obtain ⟨ha, _⟩ | ⟨_, c, _, hc, hcases⟩ := execTick_cases h
  · cases ha.symm.trans hs.active
  have hbyte : bytes[k / 11]? = some c := by
    rw [← hs.slot _ (by rw [← hs.char, ← hs.txLen]; exact hchar), ← hs.char, ← hs.txBuf]
    exact hc
  rw [transmission_getElem? hbyte, drivenLevel_eq_frame c hphase s.line, ← hs.phase]
  obtain ⟨_, rfl⟩ | ⟨_, _, rfl⟩ | ⟨_, _, rfl⟩ := hcases <;> rfl

/-- One tick before the last bit: the next bit, or the first bit of the next character. -/
theorem InFlight.tick (hk : k + 1 < 11 * bytes.length) (h : exec .tick s = .next t) :
    InFlight bytes m (k + 1) t := by
  have hline := hs.line_after_tick h
  have hinv := Invariant.exec_keeps_invariants hs.invariants h
  have ⟨_, hactive, hbuf, hlen, hslot, hchar, hphase, _⟩ := hs
  obtain ⟨ha, _⟩ | ⟨_, c, _, _, ⟨hp, rfl⟩ | ⟨hp, _, rfl⟩ | ⟨hp, hn, _⟩⟩ := execTick_cases h
  · cases ha.symm.trans hactive
  · exact ⟨hinv, hactive, hbuf, hlen, hslot, by simp only; omega, by simp only; omega, fun _ => hline⟩
  · exact ⟨hinv, hactive, hbuf, hlen, hslot, by simp only; omega, by simp only; omega, fun _ => hline⟩
  · omega

/-- The tick of the last bit frees the slot (40_modem.md R95). -/
theorem InFlight.last_tick (hk : k + 1 = 11 * bytes.length) :
    ∃ t, exec .tick s = .next t ∧ t.txActive = false ∧ t.txCharIndex = 0 ∧ t.txBitPhase = 0 ∧ t.txBuf = m ∧
      t.txLen = bytes.length ∧ some t.line = (transmission bytes)[k]? := by
  obtain ⟨c, hc, _⟩ := Modem.exists_sending hs.invariants hs.active
  have hlast := Modem.execTick_last hc (by rw [hs.phase]; omega) (by rw [hs.char, hs.txLen]; omega)
  exact ⟨_, hlast, rfl, rfl, rfl, hs.txBuf, hs.txLen, hs.line_after_tick hlast⟩

/-- A step that is no tick leaves the transmission where it is (20_memory.md R50). -/
theorem InFlight.other {i : Instr} (hi : i ≠ .reset) (ht : i ≠ .tick) (h : exec i s = .next t) :
    InFlight bytes m k t := by
  have hinv := Invariant.exec_keeps_invariants hs.invariants h
  obtain ⟨_, hactive, hbuf, hlen, hslot, hchar, hphase, hline⟩ := hs
  obtain ⟨_, _, hsame⟩ := Units.activeSlotIsNotRewritten s t i hactive h hi
  obtain ⟨eline, ebuf, elen, echar, ephase, eactive⟩ := hsame ht
  exact ⟨hinv, eactive.trans hactive, ebuf.trans hbuf, elen.trans hlen, hslot, echar.trans hchar, ephase.trans hphase,
    by rwa [eline]⟩

end

theorem tickCount_cons (i : Instr) (is : List Instr) :
    tickCount (i :: is) = if i = .tick then tickCount is + 1 else tickCount is := by
  simp only [tickCount, List.countP_cons, decide_eq_true_eq]
  split <;> rfl

/-- A run that completes is its first operation and the rest. -/
theorem execAll_cons_eq_next {i : Instr} {is : List Instr} {s t : State} (h : execAll (i :: is) s = .next t) :
    ∃ u, exec i s = .next u ∧ execAll is u = .next t := by
  rw [execAll] at h
  split at h
  next u hu => exact ⟨u, hu, h⟩
  next => cases h
  next => cases h

/-- A run without RESET moves the transmission by its ticks, as long as they end before the last bit. -/
theorem InFlight.run {bytes : List Byte} {m : Memory} {k : Nat} {run : List Instr} {s t : State}
    (hs : InFlight bytes m k s) (hreset : .reset ∉ run) (hk : k + tickCount run < 11 * bytes.length)
    (h : execAll run s = .next t) : InFlight bytes m (k + tickCount run) t := by
  induction run generalizing k s with
  | nil => cases h; exact hs
  | cons i is ih =>
    obtain ⟨u, hu, hrest⟩ := execAll_cons_eq_next h
    obtain ⟨hi, his⟩ := List.ne_and_not_mem_of_not_mem_cons hreset
    rw [tickCount_cons] at hk ⊢
    split at hk
    next ht =>
      subst ht
      rw [if_pos rfl, ← Nat.succ_add_eq_add_succ]
      exact ih (hs.tick (by omega) hu) his (by omega) hrest
    next ht =>
      rw [if_neg ht]
      exact ih (hs.other hi.symm ht hu) his hk hrest

/-- The state after an accepted SUBMIT (40_modem.md R90). -/
theorem inFlight_of_submit {s t : State} {len : Nat} {host : List Byte} (hs : Invariants s) (ha : s.txActive = false)
    (h : exec (.submit len host) s = .next t) (ht : t.out.status = .ok) :
    len ≤ host.length ∧ InFlight (host.take len) t.txBuf 0 t := by
  have hinv := Invariant.exec_keeps_invariants hs h
  obtain ⟨hf, _⟩ | ⟨_, _, rfl⟩ | ⟨_, _, _, hhost, rfl⟩ := execSubmit_cases h
  · cases ha.symm.trans hf
  · cases ht
  · have hlen : (host.take len).length = len := List.length_take_of_le hhost
    refine ⟨hhost, hinv, rfl, rfl, hlen.symm, fun a hk => ?_, rfl, rfl, nofun⟩
    rw [hlen] at hk
    rw [Modem.memLookup_slot hhost, if_pos hk, List.getElem?_take_of_lt hk]

/-- Settles O12: the SUBMIT puts the transmission in flight, and the run moves it by its ticks. -/
theorem transmissionSendsItsFrames : Obligations.TransmissionSendsItsFrames := by
  intro s s₁ s₂ len host run hs ha hsubmit hok hreset hrun
  obtain ⟨hhost, hstart⟩ := inFlight_of_submit hs ha hsubmit hok
  have hlen : (host.take len).length = len := List.length_take_of_le hhost
  have hmoved (hk : tickCount run < 11 * len) : InFlight (host.take len) s₁.txBuf (tickCount run) s₂ := by
    have := hstart.run hreset (by rw [hlen]; omega) hrun
    rwa [Nat.zero_add] at this
  refine ⟨fun hk => ?_, fun hk => ?_⟩
  · obtain ⟨_, hactive, hbuf, htxLen, hslot, hchar, hphase, hline⟩ := hmoved hk
    refine ⟨hactive, hchar, hphase, htxLen.trans hlen, hbuf, fun a hlt => ?_, hline, fun _ _ => execSubmit_busy hactive⟩
    rw [hbuf, hslot a (hlen.symm ▸ hlt), List.getElem?_take_of_lt hlt]
  · have hlast := (hmoved (by omega)).last_tick (by rw [hlen]; exact hk)
    rwa [hlen] at hlast

end Sys2Proof.Transmission
end

section
/-! Proofs about the checksums: the byte-wise form of the CRC step (41_checksum.md R116), the CRC of the bytes since
CRC_INIT (20_memory.md R52), the digits of `hex4` (R115) and the laws of `xor8` (R117). -/

namespace Sys2Proof.Checksum
open Sys2Proof.Machine

/-! ### The byte-wise form of the CRC step -/

/-- The byte in the top half of the register, moved up `k` places (41_checksum.md R116). -/
def topHalf (b : Byte) (k : Nat) : CrcWord := (b.zeroExtend 16 <<< 8) <<< k

theorem topHalf_zero (b : Byte) : topHalf b 0 = b.zeroExtend 16 <<< 8 := BitVec.shiftLeft_zero _

/-- After eight places the byte is used up. -/
theorem topHalf_eight (b : Byte) : topHalf b 8 = 0#16 := by
  rw [topHalf, ← BitVec.shiftLeft_add]
  exact BitVec.shiftLeft_eq_zero (by decide)

/-- The top bit is then bit `7 - k` of the byte. -/
theorem getLsbD_topHalf (b : Byte) {k : Nat} (hk : k < 8) : (topHalf b k).getLsbD 15 = b.getLsbD (7 - k) := by
  have hplace : 15 - (8 + k) = 7 - k := by omega
  have hlow : ¬ 15 < 8 + k := by omega
  simp [topHalf, ← BitVec.shiftLeft_add, hplace, hlow]

/-- A shift is linear but for the top bit, so it takes one data bit from the byte in the top half and leaves the rest of the
byte in, one place up. -/
theorem crcShift_topHalf (c : CrcWord) (b : Byte) {k : Nat} (hk : k < 8) :
    crcShift (c ^^^ topHalf b k) = crcBit c (b.getLsbD (7 - k)) ^^^ topHalf b (k + 1) := by
  have hrest : topHalf b (k + 1) = topHalf b k <<< 1 := BitVec.shiftLeft_add _ k 1
  unfold crcShift crcBit
  rw [BitVec.getLsbD_xor, getLsbD_topHalf b hk, BitVec.shiftLeft_xor_distrib, hrest]
  split
  · ac_rfl
  · rfl

/-- Settles O17: each of the eight shifts takes one data bit from the top half, and after eight the byte is used up. -/
theorem bitSerialEqualsByteWise : Obligations.BitSerialEqualsByteWise := by
  intro c b
  rw [crcStepByteWise, ← topHalf_zero]
  simp only [crcShift_topHalf, Nat.reduceLT, Nat.reduceAdd, Nat.reduceSub, topHalf_eight, BitVec.xor_zero]
  rfl

/-! ### The CRC of the bytes since CRC_INIT -/

/-- An operation that is neither RESET nor CRC_INIT feeds its bytes, one or none, to the register (20_memory.md R52). -/
theorem exec_crc {i : Instr} {s t : State} {c : CrcWord} (hr : i ≠ .reset) (hi : i ≠ .crcInit) (hc : s.crc = some c)
    (h : exec i s = .next t) : t.crc = some ((crcBytes [i]).foldl crcStep c) := by
  by_cases hu : unitOf i = .checksum
  · cases i with
    | crcInit => exact absurd rfl hi
    | crcByte b => cases (exec_crcByte_next b hc).symm.trans h; rfl
    | crcRead => cases (exec_crcRead_next hc).symm.trans h; exact hc
    | _ => cases hu
  · have hcrc : t.crc = s.crc := Units.exec_sameGroup h hr hu
    cases i with
    | crcByte b => exact absurd rfl hu
    | _ => exact hcrc.trans hc

theorem crcBytes_cons (i : Instr) (is : List Instr) : crcBytes (i :: is) = crcBytes [i] ++ crcBytes is := by
  cases i <;> rfl

/-- A run feeds exactly the bytes of its CRC_BYTE steps, in their order (20_memory.md R52). -/
theorem execAll_crc {run : List Instr} {s t : State} {c : CrcWord} (hr : .reset ∉ run) (hi : .crcInit ∉ run)
    (hc : s.crc = some c) (h : execAll run s = .next t) : t.crc = some ((crcBytes run).foldl crcStep c) := by
  induction run generalizing s c with
  | nil => cases h; exact hc
  | cons i is ih =>
    obtain ⟨u, hu, hrest⟩ := Transmission.execAll_cons_eq_next h
    obtain ⟨hr₁, hr⟩ := List.ne_and_not_mem_of_not_mem_cons hr
    obtain ⟨hi₁, hi⟩ := List.ne_and_not_mem_of_not_mem_cons hi
    rw [crcBytes_cons, List.foldl_append]
    exact ih hr hi (exec_crc hr₁.symm hi₁.symm hc hu) hrest

/-- Settles O20: CRC_INIT loads the initial value, and the run folds its bytes into it. -/
theorem crcIgnoresOtherUnits : Obligations.CrcIgnoresOtherUnits := by
  intro s t run hr hi h
  obtain ⟨u, hu, hrest⟩ := Transmission.execAll_cons_eq_next h
  cases (exec_crcInit_next s).symm.trans hu
  exact exec_crcRead_next (execAll_crc hr hi rfl hrest)

/-! ### The digits of `hex4` -/

/-- A written digit is read back without the lowercase option (30_encoding.md R74). -/
theorem hexVal_hexDigit {n : Nat} (hn : n < 16) : hexVal false (hexDigit n) = some n :=
  Ingest.hexVal_eq_some_iff_hexDigit.mpr ⟨hn, .inl rfl⟩

/-- Settles O21: each digit is read back as its four bits, which are the digits of the number in base 16. -/
theorem hexDigitsReadBack : Obligations.HexDigitsReadBack := by
  intro v
  have hv := v.isLt
  refine ⟨_, _, _, _, rfl, _, _, _, _, hexVal_hexDigit (BitVec.isLt _), hexVal_hexDigit (BitVec.isLt _),
    hexVal_hexDigit (BitVec.isLt _), hexVal_hexDigit (BitVec.isLt _), ?_⟩
  simp only [BitVec.extractLsb'_toNat, Nat.shiftRight_eq_div_pow]
  omega

/-- The digits fix the value, since they read back as it. -/
theorem hex4_inj {v w : CrcWord} : hex4 v = hex4 w ↔ v = w := by
  refine ⟨fun h => BitVec.eq_of_toNat_eq ?_, congrArg hex4⟩
  obtain ⟨a, b, c, d, hv, x, y, z, u, hx, hy, hz, hu, hval⟩ := hexDigitsReadBack v
  obtain ⟨a', b', c', d', hw, x', y', z', u', hx', hy', hz', hu', hval'⟩ := hexDigitsReadBack w
  rw [hv, hw] at h
  cases h
  cases hx.symm.trans hx'
  cases hy.symm.trans hy'
  cases hz.symm.trans hz'
  cases hu.symm.trans hu'
  rw [hval, hval']

/-! ### The XOR checksum -/

theorem foldl_xor_eq (a : Byte) (bs : List Byte) : bs.foldl (fun x b => x ^^^ b) a = a ^^^ xor8 bs := by
  unfold xor8
  induction bs generalizing a with
  | nil => simp
  | cons b bs ih => rw [List.foldl_cons, List.foldl_cons, ih, ih (0#8 ^^^ b), BitVec.zero_xor, BitVec.xor_assoc]

theorem xor8_append (as bs : List Byte) : xor8 (as ++ bs) = xor8 as ^^^ xor8 bs := by
  rw [xor8, List.foldl_append, foldl_xor_eq]
  rfl

theorem xor8_cons (b : Byte) (bs : List Byte) : xor8 (b :: bs) = b ^^^ xor8 bs := by
  rw [xor8, List.foldl_cons, foldl_xor_eq, BitVec.zero_xor]

/-- Changing one byte by an exclusive-or changes the checksum by the same (41_checksum.md R117). -/
theorem xor8_change (as bs : List Byte) (b d : Byte) : xor8 (as ++ (b ^^^ d) :: bs) = xor8 (as ++ b :: bs) ^^^ d := by
  rw [xor8_append, xor8_append, xor8_cons, xor8_cons]
  ac_rfl

theorem xor8_perm {as bs : List Byte} (h : as.Perm bs) : xor8 as = xor8 bs := by
  induction h with
  | nil => rfl
  | cons b _ ih => rw [xor8_cons, xor8_cons, ih]
  | swap a b cs => rw [xor8_cons, xor8_cons, xor8_cons, xor8_cons]; ac_rfl
  | trans _ _ ih₁ ih₂ => exact ih₁.trans ih₂

theorem xor8_cancel (as bs cs : List Byte) (b : Byte) : xor8 (as ++ b :: bs ++ b :: cs) = xor8 (as ++ bs ++ cs) := by
  simp only [xor8_append, xor8_cons]
  calc xor8 as ^^^ (b ^^^ xor8 bs) ^^^ (b ^^^ xor8 cs) = (b ^^^ b) ^^^ (xor8 as ^^^ xor8 bs ^^^ xor8 cs) := by ac_rfl
    _ = xor8 as ^^^ xor8 bs ^^^ xor8 cs := by rw [BitVec.xor_self, BitVec.zero_xor]

/-- Settles O24: `xor8` of a list is the exclusive-or of its parts. -/
theorem xorChecksumLaws : Obligations.XorChecksumLaws :=
  ⟨rfl, fun _ _ => List.foldl_concat .., fun _ _ => xor8_perm, fun as bs b j _ => xor8_change as bs b _, xor8_cancel,
    by decide⟩

end Sys2Proof.Checksum
end

section
/-! Proofs about the two sentence formats: whole telemetry sentences (30_encoding.md R70), sealing (41_checksum.md R118), the
receiver's check (R71), and the NMEA lines that validate (42_nmea.md R140). -/

namespace Sys2Proof.Sentence
open Sys2Proof.Machine

/-- A list that is long enough has a front and a back of the given lengths. -/
theorem exists_front_body_back {l : List Byte} {m n : Nat} (h : m + n ≤ l.length) :
    ∃ front body back, l = front ++ body ++ back ∧ front.length = m ∧ back.length = n := by
  refine ⟨l.take m, (l.drop m).take (l.length - m - n), (l.drop m).drop (l.length - m - n), ?_, ?_, ?_⟩
  · rw [List.append_assoc, List.take_append_drop, List.take_append_drop]
  · rw [List.length_take]; omega
  · rw [List.length_drop, List.length_drop]; omega

/-- Index `k` of the back of a list, counted from the front of the whole list. -/
theorem getElem?_back (front back : List Byte) (k : Nat) : (front ++ back)[front.length + k]? = back[k]? := by
  rw [List.getElem?_append_right (by omega), Nat.add_sub_cancel_left]

/-! ### Whole telemetry sentences -/

section
variable (front body : List Byte) (m d₁ d₂ d₃ d₄ n : Byte)

theorem sentenceDigits_cut : sentenceDigits (front ++ [m, d₁, d₂, d₃, d₄, n]) = [d₁, d₂, d₃, d₄] := by
  have hdigits := sentenceDigits_rendered (front := front ++ [m]) (digits := [d₁, d₂, d₃, d₄]) (last := n) rfl
  rwa [List.append_assoc, List.append_assoc] at hdigits

/-- The clauses of R70, of a sentence that stands cut into two bytes, a body and six bytes. -/
theorem wholeSentence_cut (hf : front.length = 2) :
    wholeSentence (front ++ body ++ [m, d₁, d₂, d₃, d₄, n]) = true ↔
      front = preamble ∧ m = 0x2A#8 ∧ (∀ d ∈ [d₁, d₂, d₃, d₄], isUpperDigit d = true) ∧ n = 0x0A#8 := by
  have hlen : (front ++ body ++ [m, d₁, d₂, d₃, d₄, n]).length = (front ++ body).length + 6 := List.length_append
  have htake : (front ++ body ++ [m, d₁, d₂, d₃, d₄, n]).take 2 = front := by
    rw [List.append_assoc, ← hf, List.take_left]
  have hmark : (front ++ body ++ [m, d₁, d₂, d₃, d₄, n])[(front ++ body).length + 6 - 6]? = some m :=
    getElem?_back _ _ 0
  have hlast : (front ++ body ++ [m, d₁, d₂, d₃, d₄, n])[(front ++ body).length + 6 - 1]? = some n :=
    getElem?_back _ _ 5
  have hsize : 8 ≤ (front ++ body).length + 6 := by rw [List.length_append]; omega
  rw [wholeSentence, hlen, htake, hmark, hlast, sentenceDigits_cut]
  simp only [hsize, decide_true, Bool.true_and, Bool.and_eq_true, beq_iff_eq, Option.some.injEq, List.all_eq_true,
    csMarker_eq, and_assoc]
  rfl

end

/-- A byte string of 8 bytes or more can be cut so, and a whole sentence has as many (30_encoding.md R70). -/
theorem exists_cut {s : List Byte} (hs : wholeSentence s = true) :
    ∃ front body m d₁ d₂ d₃ d₄ n, s = front ++ body ++ [m, d₁, d₂, d₃, d₄, n] ∧ front.length = 2 := by
  have hlen : 2 + 6 ≤ s.length := by
    simp only [wholeSentence, Bool.and_eq_true, decide_eq_true_eq] at hs
    obtain ⟨⟨⟨⟨hlen, _⟩, _⟩, _⟩, _⟩ := hs
    exact hlen
  obtain ⟨front, body, back, rfl, hfront, hback⟩ := exists_front_body_back hlen
  match back, hback with
  | [m, d₁, d₂, d₃, d₄, n], _ => exact ⟨front, body, m, d₁, d₂, d₃, d₄, n, rfl, hfront⟩

theorem wholeSentence_iff {s : List Byte} :
    wholeSentence s = true ↔ ∃ (body : List Byte) (d₁ d₂ d₃ d₄ : Byte),
      s = [0x24#8, 0x24#8] ++ body ++ [0x2A#8, d₁, d₂, d₃, d₄, 0x0A#8] ∧
      ∀ d ∈ [d₁, d₂, d₃, d₄], ∃ n, n < 16 ∧ d = hexDigit n := by
  simp only [← isUpperDigit_iff]
  constructor
  · intro hs
    obtain ⟨front, body, m, d₁, d₂, d₃, d₄, n, rfl, hfront⟩ := exists_cut hs
    obtain ⟨rfl, rfl, hdigits, rfl⟩ := (wholeSentence_cut front body m d₁ d₂ d₃ d₄ n hfront).mp hs
    exact ⟨body, d₁, d₂, d₃, d₄, rfl, hdigits⟩
  · rintro ⟨body, d₁, d₂, d₃, d₄, rfl, hdigits⟩
    exact (wholeSentence_cut _ body _ d₁ d₂ d₃ d₄ _ rfl).mpr ⟨rfl, rfl, hdigits, rfl⟩

/-- Settles O45: a whole sentence is its cut, and the covered bytes and the digits are parts of the cut. -/
theorem wholeSentencesAreTheRenderedOnes : Obligations.WholeSentencesAreTheRenderedOnes := by
  refine fun s => ⟨wholeSentence_iff, ?_, fun hs => ?_, fun hs hlen => ?_⟩
  · rintro body d₁ d₂ d₃ d₄ rfl
    exact ⟨coveredBytes_rendered rfl rfl, sentenceDigits_cut ..⟩
  all_goals obtain ⟨body, d₁, d₂, d₃, d₄, rfl, -⟩ := wholeSentence_iff.mp hs
  · simp only [List.length_append, List.length_cons, List.length_nil]
    omega
  · obtain rfl : body = [] := by simpa using hlen
    rfl

/-! ### Sealing and the receiver's check -/

/-- Settles O22: sealing writes the digits of `crc16` of the body, which is what the run of CRC_OF leaves on `dout`. -/
theorem sealingUsesTheChecksumUnit : Obligations.SealingUsesTheChecksumUnit := by
  intro s body cap p
  refine ⟨_, Checksum.execAll_crcOf s _, ?_, fun sentence hs => ?_⟩
  · rw [sealSentence, checksumSuffix_eq, ← List.append_assoc, ← List.append_assoc]
    rfl
  · obtain ⟨_, rfl⟩ := sealSentence_eq_some.mp hs
    exact List.length_append

/-- What the check answers of a body under the suffix of the value `c` (30_encoding.md R71). -/
theorem receiverCheck_suffix (body : List Byte) (c : CrcWord) :
    receiverCheck (sentencePrefix body ++ checksumSuffix c) = true ↔ crc16 body = c := by
  have hwhole : wholeSentence (sentencePrefix body ++ checksumSuffix c) = true :=
    (wholeSentence_cut preamble body _ _ _ _ _ _ rfl).mpr ⟨rfl, rfl, fun _ => isUpperDigit_of_mem_hex4 (c := c), rfl⟩
  have hcovered : coveredBytes (sentencePrefix body ++ checksumSuffix c) = body := coveredBytes_rendered rfl rfl
  have hdigits : sentenceDigits (sentencePrefix body ++ checksumSuffix c) = hex4 c := sentenceDigits_cut ..
  rw [receiverCheck, hwhole, hcovered, hdigits, Bool.true_and, beq_iff_eq, Checksum.hex4_inj]

/-- Settles O23: the suffix of a sealed sentence is that of its body's CRC, and the check compares with it. -/
theorem receiverAcceptsSealedSentences : Obligations.ReceiverAcceptsSealedSentences := by
  refine ⟨fun body sentence cap hs => ?_, fun s hs => ?_⟩
  · obtain ⟨_, rfl⟩ := sealSentence_eq_some.mp hs
    refine ⟨(receiverCheck_suffix body _).mpr rfl, coveredBytes_rendered rfl rfl, fun other _ => ?_⟩
    rw [List.drop_left' (by rw [sentencePrefix_length, Nat.add_comm])]
    exact receiverCheck_suffix other _
  · simpa [receiverCheck] using hs

/-! ### The NMEA lines that validate -/

theorem checksumMatches_iff {lowerOk : Bool} {body : List Byte} {h₁ h₂ : Byte} :
    checksumMatches lowerOk body h₁ h₂ = true ↔
      ∃ x y, hexVal lowerOk h₁ = some x ∧ hexVal lowerOk h₂ = some y ∧ (xor8 body).toNat = 16 * x + y := by
  unfold checksumMatches
  cases hexVal lowerOk h₁ <;> cases hexVal lowerOk h₂ <;> simp

/-- The clauses of R140, of a line that stands cut into a byte, a body and three bytes. -/
theorem validate_cut (lowerOk : Bool) (a : Byte) (body : List Byte) (m h₁ h₂ : Byte) :
    validate lowerOk ([a] ++ body ++ [m, h₁, h₂]) = true ↔
      a = 0x24#8 ∧ m = 0x2A#8 ∧ checksumMatches lowerOk body h₁ h₂ = true := by
  have hlen : ([a] ++ body ++ [m, h₁, h₂]).length = ([a] ++ body).length + 3 := List.length_append
  have hback (k : Nat) : ([a] ++ body ++ [m, h₁, h₂]).getD (([a] ++ body).length + k) 0#8 = [m, h₁, h₂].getD k 0#8 := by
    rw [List.getD_eq_getElem?_getD, getElem?_back, List.getD_eq_getElem?_getD]
  have hbody : (([a] ++ body ++ [m, h₁, h₂]).drop 1).take (([a] ++ body).length + 3 - 4) = body := by
    simp
  have hsize : 4 ≤ ([a] ++ body).length + 3 := by simp
  rw [validate, hlen, hbody, show ([a] ++ body).length + 3 - 3 = ([a] ++ body).length + 0 from rfl,
    show ([a] ++ body).length + 3 - 2 = ([a] ++ body).length + 1 from rfl,
    show ([a] ++ body).length + 3 - 1 = ([a] ++ body).length + 2 from rfl, hback, hback, hback]
  simp only [hsize, decide_true, Bool.true_and, Bool.and_eq_true, beq_iff_eq, and_assoc]
  rfl

theorem exists_line_cut {l : List Byte} (h : 4 ≤ l.length) : ∃ a body m h₁ h₂, l = [a] ++ body ++ [m, h₁, h₂] := by
  obtain ⟨front, body, back, rfl, hfront, hback⟩ := exists_front_body_back (m := 1) (n := 3) h
  match front, back, hfront, hback with
  | [a], [m, h₁, h₂], _, _ => exact ⟨a, body, m, h₁, h₂, rfl⟩

/-- Settles O26: a line of four bytes or more can be cut, and the clauses of `validate` are those of the cut. -/
theorem validLinesAreTheWellFormedOnes : Obligations.ValidLinesAreTheWellFormedOnes := by
  intro lowerOk l
  constructor
  · intro hv
    have hlen : 4 ≤ l.length := by
      simp only [validate, Bool.and_eq_true, decide_eq_true_eq] at hv
      obtain ⟨⟨⟨hlen, _⟩, _⟩, _⟩ := hv
      exact hlen
    obtain ⟨a, body, m, h₁, h₂, rfl⟩ := exists_line_cut hlen
    obtain ⟨rfl, rfl, hmatch⟩ := (validate_cut ..).mp hv
    obtain ⟨x, y, hx, hy, hsum⟩ := checksumMatches_iff.mp hmatch
    exact ⟨body, h₁, h₂, x, y, rfl, hx, hy, hsum⟩
  · rintro ⟨body, h₁, h₂, x, y, rfl, hx, hy, hsum⟩
    exact (validate_cut ..).mpr ⟨rfl, rfl, checksumMatches_iff.mpr ⟨x, y, hx, hy, hsum⟩⟩

end Sys2Proof.Sentence
end

section
/-! Proofs about captured NMEA lines: when a step dispatches and what it makes of the snapshot (42_nmea.md R138, R144, R146),
and what becomes of a line that is fed byte by byte (R134, R136, R141, R145). -/

namespace Sys2Proof.Capture
open Sys2Proof.Machine

/-! ### The step that dispatches -/

/-- The byte is the second one of the checksum window (42_nmea.md R137). -/
def EndsWindow (b : Byte) (s : State) : Prop := b ≠ 0x24#8 ∧ s.rxState = .inChecksum ∧ s.rxCsCount ≠ 0

/-- NMEA_RX dispatches at the second byte of the window, and updates the snapshot by the verdict; in every other state it
does neither (42_nmea.md R138, R144). -/
theorem execNmeaRx_dispatch {b : Byte} {s t : State} (h : execNmeaRx b s = .next t) :
    (¬ EndsWindow b s ∧ t.out.dispatch = none ∧ t.gpsSnapshot = s.gpsSnapshot) ∨
    (EndsWindow b s ∧ ∃ l, t.out.dispatch = some (l, validate s.params.nmeaHexLowerOk l) ∧
      t.gpsSnapshot = if validate s.params.nmeaHexLowerOk l then gpsUpdate s.gpsSnapshot l else s.gpsSnapshot) := by
  unfold EndsWindow
  obtain ⟨_, hst, rfl⟩ | ⟨hb, _, rfl⟩ | ⟨_, hst, _, ⟨_, rfl⟩ | ⟨_, rfl⟩⟩ |
    ⟨hb, hst, _, ⟨hc, rfl⟩ | ⟨hc, l, _, _, rfl⟩⟩ := execNmeaRx_cases h
  · exact .inl ⟨by simp [hst], rfl, rfl⟩
  · exact .inl ⟨by simp [hb], rfl, rfl⟩
  · exact .inl ⟨by simp [hst], rfl, rfl⟩
  · exact .inl ⟨by simp [hst], rfl, rfl⟩
  · exact .inl ⟨by simp [hc], rfl, rfl⟩
  · exact .inr ⟨⟨hb, hst, hc⟩, l, rfl, rfl⟩

/-- Settles O32: under the invariants the count is 0 or 1, and no operation but NMEA_RX dispatches. -/
theorem dispatchExactlyAtSecondWindowByte : Obligations.DispatchExactlyAtSecondWindowByte := by
  intro s t i ⟨_, _, _, _, _, _, _, hcount⟩ h
  by_cases hi : ∃ b, i = .nmeaRx b
  · obtain ⟨b, rfl⟩ := hi
    obtain ⟨hend, hd, _⟩ | ⟨⟨hb, hst, hc⟩, l, hd, _⟩ := execNmeaRx_dispatch h
    · rw [hd]
      refine iff_of_false nofun ?_
      rintro ⟨_, ⟨⟩, hb, hst, hc⟩
      exact hend ⟨hb, hst, by omega⟩
    · rw [hd]
      exact iff_of_true rfl ⟨b, rfl, hb, hst, by omega⟩
  · rw [Ingest.exec_dispatch_eq_none h fun b e => hi ⟨b, e⟩]
    exact iff_of_false nofun fun ⟨b, e, _⟩ => hi ⟨b, e⟩

/-- Settles O33: NMEA_RX updates the snapshot by the verdict that it dispatches, and it alone writes the group. -/
theorem snapshotChangesOnlyOnValidDispatch : Obligations.SnapshotChangesOnlyOnValidDispatch := by
  intro s t i hr h
  by_cases hu : unitOf i = .ingest
  · cases i with
    | nmeaRx b =>
      obtain ⟨_, hd, hsnap⟩ | ⟨_, l, hd, hsnap⟩ := execNmeaRx_dispatch h
      · exact ⟨fun _ => hsnap, fun l v hl => by simp [hd] at hl⟩
      · rw [hd, hsnap]
        refine ⟨fun hl => if_neg fun hv => hl l (by rw [hv]), ?_⟩
        rintro _ _ ⟨⟩
        exact ⟨rfl, fun hv => if_pos hv⟩
    | _ => cases hu
  · obtain ⟨_, _, _, _, hsnap⟩ := Units.exec_sameGroup h hr hu
    have hd := Ingest.exec_dispatch_eq_none h fun b e => hu (by rw [e]; rfl)
    exact ⟨fun _ => hsnap, fun l v hl => by simp [hd] at hl⟩

/-- Settles O34: the step applies `gps_update`, whose two cases are the two clauses. -/
theorem zeroFixForcesZeroTriple : Obligations.ZeroFixForcesZeroTriple := by
  intro s t b l h hd
  obtain ⟨_, hverdict⟩ := snapshotChangesOnlyOnValidDispatch s t (.nmeaRx b) nofun h
  obtain ⟨_, hsnap⟩ := hverdict l true hd
  rw [hsnap rfl, gpsUpdate]
  refine ⟨fun hz => ?_, fun hz => ?_⟩
  · rw [if_pos hz]
    exact ⟨rfl, rfl, rfl⟩
  · rw [hz, if_neg (by decide)]

/-! ### The bytes of a line in the buffer -/

/-- The line buffer after the bytes `fed` from a start marker on: all of them as long as they fit, and then no start marker
at index 0 any more (42_nmea.md R135, R136). -/
def Buffered (fed : List Byte) (t : State) : Prop :=
  (fed.length ≤ t.params.nmeaBufLen → t.rxIndex = fed.length ∧ ∀ a, a < fed.length → memLookup t.rxBuf a = fed[a]?) ∧
  (t.params.nmeaBufLen < fed.length → memLookup t.rxBuf 0 ≠ some 0x24#8)

/-- A byte other than the start marker, taken while capture is enabled, is appended (42_nmea.md R130). -/
theorem execNmeaRx_append {b : Byte} {s t : State} (hb : b ≠ 0x24#8) (hst : s.rxState ≠ .awaitStart)
    (h : execNmeaRx b s = .next t) :
    t.rxBuf = memStore (appendIndex s) [b] s.rxBuf ∧ t.rxIndex = appendIndex s + 1 := by
  obtain ⟨_, hf, _⟩ | ⟨hf, _⟩ | ⟨_, _, _, ⟨_, rfl⟩ | ⟨_, rfl⟩⟩ | ⟨_, _, _, ⟨_, rfl⟩ | ⟨_, _, _, _, rfl⟩⟩ :=
    execNmeaRx_cases h
  · exact absurd hf hst
  · exact absurd hf hb
  all_goals exact ⟨rfl, rfl⟩

theorem Buffered.append {fed : List Byte} {b : Byte} {s t : State} (hs : Buffered fed s) (hb : b ≠ 0x24#8)
    (hst : s.rxState ≠ .awaitStart) (h : exec (.nmeaRx b) s = .next t) : Buffered (fed ++ [b]) t := by
  obtain ⟨hbuf, hindex⟩ := execNmeaRx_append hb hst h
  obtain ⟨hfits, hwrapped⟩ := hs
  obtain ⟨hparams, _⟩ := Units.exec_params_pending h
  unfold Buffered
  rw [hbuf, hindex, hparams, List.length_append, List.length_singleton]
  refine ⟨fun hlen => ?_, fun hlen => ?_⟩
  · obtain ⟨hidx, hbytes⟩ := hfits (by omega)
    rw [appendIndex_eq, if_neg (by omega), hidx]
    refine ⟨rfl, fun a ha => ?_⟩
    rw [memLookup_memStore_one]
    obtain rfl | ha : a = fed.length ∨ a < fed.length := by omega
    · simp
    · rw [if_neg (by omega), hbytes a ha, List.getElem?_append_left ha]
  · rw [memLookup_memStore_one]
    split
    · simpa using hb
    · next hne =>
      refine hwrapped ?_
      by_contra hle
      obtain ⟨hidx, _⟩ := hfits (by omega)
      rw [appendIndex_eq, if_pos (by omega)] at hne
      exact hne rfl

/-- What holds of the state `t` that the bytes `fed` of a line lead to from `s`, as long as none of them dispatches. -/
structure Fed (s : State) (fed : List Byte) (st : RxState) (count : Nat) (t : State) : Prop where
  invariants : Invariants t
  params : t.params = s.params
  out : t.out = statusOutputs .ok
  snapshot : t.gpsSnapshot = s.gpsSnapshot
  modem : SameModem s t
  checksum : SameChecksum s t
  buffered : Buffered fed t
  rxState : t.rxState = st
  rxCsCount : t.rxCsCount = count

section
variable {s u t : State} {fed : List Byte} {st : RxState} {count : Nat} {b : Byte}

/-- NMEA_RX goes on with what it leaves alone (10_state.md R10). -/
theorem same_of_nmeaRx (hm : SameModem s u) (hc : SameChecksum s u) (hp : u.params = s.params)
    (h : exec (.nmeaRx b) u = .next t) : SameModem s t ∧ SameChecksum s t ∧ t.params = s.params := by
  obtain ⟨eline, ebuf, elen, echar, ephase, eactive⟩ := Units.exec_sameGroup (v := .modem) h nofun nofun
  have ecrc : SameChecksum u t := Units.exec_sameGroup (v := .checksum) h nofun nofun
  obtain ⟨hline, hbuf, hlen, hchar, hphase, hactive⟩ := hm
  exact ⟨⟨eline.trans hline, ebuf.trans hbuf, elen.trans hlen, echar.trans hchar, ephase.trans hphase,
    eactive.trans hactive⟩, ecrc.trans hc, (Units.exec_params_pending h).1.trans hp⟩

/-- One byte more that is appended and does not dispatch. -/
theorem Fed.append (hu : Fed s fed st count u) (hb : b ≠ 0x24#8) (hst : st ≠ .awaitStart)
    (h : exec (.nmeaRx b) u = .next t) (hout : t.out = statusOutputs .ok) (hsnap : t.gpsSnapshot = u.gpsSnapshot)
    {st' : RxState} {count' : Nat} (hst' : t.rxState = st') (hcount' : t.rxCsCount = count') :
    Fed s (fed ++ [b]) st' count' t := by
  obtain ⟨hmodem, hchecksum, hparams⟩ := same_of_nmeaRx hu.modem hu.checksum hu.params h
  exact ⟨Invariant.exec_keeps_invariants hu.invariants h, hparams, hout, hsnap.trans hu.snapshot, hmodem, hchecksum,
    hu.buffered.append hb (hu.rxState ▸ hst) h, hst', hcount'⟩

end

/-- The bytes `bs`, fed from `s`, complete without a dispatch and leave the capture state and count. -/
def Feeds (s : State) (bs : List Byte) (st : RxState) (count : Nat) : Prop :=
  ∃ t, execAll (nmeaBurst bs) s = .next t ∧ Fed s bs st count t

theorem execAll_append_next {is js : List Instr} {s t : State} (h : execAll is s = .next t) :
    execAll (is ++ js) s = execAll js t := by
  induction is generalizing s with
  | nil => cases h; rfl
  | cons i is ih =>
    obtain ⟨u, hu, hrest⟩ := Transmission.execAll_cons_eq_next h
    exact (Modem.execAll_cons_next hu).trans (ih hrest)

theorem execAll_nmeaBurst_snoc {bs : List Byte} {b : Byte} {s u t : State} (h : execAll (nmeaBurst bs) s = .next u)
    (hb : exec (.nmeaRx b) u = .next t) : execAll (nmeaBurst (bs ++ [b])) s = .next t := by
  rw [nmeaBurst, List.map_append, ← nmeaBurst, execAll_append_next h]
  exact Modem.execAll_cons_next hb

section
variable {s : State} {fed : List Byte} {b : Byte}

/-- The start marker begins the line in every state (42_nmea.md R132). -/
theorem feeds_start (hs : Invariants s) : Feeds s [0x24#8] .capturing 0 := by
  have hstart := Ingest.exec_nmeaRx_start hs
  refine ⟨_, Modem.execAll_cons_next hstart, Invariant.exec_keeps_invariants hs hstart, rfl, rfl, rfl,
    ⟨rfl, rfl, rfl, rfl, rfl, rfl⟩, rfl, ⟨fun _ => ⟨rfl, fun a ha => ?_⟩, fun hlen => ?_⟩, rfl, rfl⟩
  · obtain rfl : a = 0 := by simpa using ha
    rw [memLookup_memStore_one]
    rfl
  · obtain ⟨⟨_, _, hpos⟩, _⟩ := hs
    exact absurd hpos (Nat.not_le.mpr hlen)

/-- A byte of the body (42_nmea.md R130). -/
theorem Feeds.body (h : Feeds s fed .capturing 0) (hb : b ≠ 0x24#8) (hc : b ≠ 0x2A#8) :
    Feeds s (fed ++ [b]) .capturing 0 := by
  obtain ⟨u, hrun, hu⟩ := h
  have hnext := Ingest.exec_nmeaRx_capturing hu.invariants hb hu.rxState
  rw [if_neg hc] at hnext
  exact ⟨_, execAll_nmeaBurst_snoc hrun hnext, hu.append hb nofun hnext rfl rfl rfl rfl⟩

/-- The checksum marker opens the window (42_nmea.md R130). -/
theorem Feeds.marker (h : Feeds s fed .capturing 0) : Feeds s (fed ++ [0x2A#8]) .inChecksum 0 := by
  obtain ⟨u, hrun, hu⟩ := h
  have hnext := Ingest.exec_nmeaRx_capturing hu.invariants (b := 0x2A#8) (by decide) hu.rxState
  exact ⟨_, execAll_nmeaBurst_snoc hrun hnext, hu.append (by decide) nofun hnext rfl rfl rfl rfl⟩

/-- The first byte of the window (42_nmea.md R137). -/
theorem Feeds.digit (h : Feeds s fed .inChecksum 0) (hb : b ≠ 0x24#8) : Feeds s (fed ++ [b]) .inChecksum 1 := by
  obtain ⟨u, hrun, hu⟩ := h
  have hnext := Ingest.exec_nmeaRx_firstWindowByte hu.invariants hb hu.rxState hu.rxCsCount
  exact ⟨_, execAll_nmeaBurst_snoc hrun hnext, hu.append hb nofun hnext rfl rfl hu.rxState rfl⟩

end

/-! ### A line fed whole -/

/-- A line of start marker, body, checksum marker and two bytes. -/
def lineText (body : List Byte) (h₁ h₂ : Byte) : List Byte := [0x24#8] ++ body ++ [0x2A#8, h₁, h₂]

/-- What the last byte of a line leaves: the dispatch of the captured bytes `l`, with their verdict. -/
structure Dispatched (s : State) (text l : List Byte) (t : State) : Prop where
  params : t.params = s.params
  out : t.out = { status := .ok, dout := 0#16, dispatch := some (l, validate s.params.nmeaHexLowerOk l) }
  snapshot : t.gpsSnapshot =
    if validate s.params.nmeaHexLowerOk l then gpsUpdate s.gpsSnapshot l else s.gpsSnapshot
  length : l.length = t.rxIndex
  bytes : ∀ a, a < t.rxIndex → l[a]? = memLookup t.rxBuf a
  buffered : Buffered text t
  rxState : t.rxState = .awaitStart
  rxCsCount : t.rxCsCount = 0
  modem : SameModem s t
  checksum : SameChecksum s t

/-- The second byte of the window dispatches (42_nmea.md R138). -/
theorem Feeds.dispatch {s : State} {fed : List Byte} {b : Byte} (h : Feeds s fed .inChecksum 1) (hb : b ≠ 0x24#8) :
    ∃ t l, execAll (nmeaBurst (fed ++ [b])) s = .next t ∧ Dispatched s (fed ++ [b]) l t := by
  obtain ⟨u, hrun, hu⟩ := h
  obtain ⟨l, hlen, hbytes, hnext⟩ :=
    Ingest.exec_nmeaRx_secondWindowByte hu.invariants hb hu.rxState hu.rxCsCount
  obtain ⟨hmodem, hchecksum, hparams⟩ := same_of_nmeaRx hu.modem hu.checksum hu.params hnext
  have hst : u.rxState ≠ .awaitStart := by rw [hu.rxState]; nofun
  exact ⟨_, l, execAll_nmeaBurst_snoc hrun hnext, hparams, by rw [hu.params], by rw [hu.params, hu.snapshot], hlen, hbytes,
    hu.buffered.append hb hst hnext, rfl, rfl, hmodem, hchecksum⟩

section
variable {s : State} {body : List Byte} {h₁ h₂ : Byte} (hs : Invariants s) (hstart : 0x24#8 ∉ body) (hcs : 0x2A#8 ∉ body)
include hs hstart hcs

theorem feeds_body : Feeds s ([0x24#8] ++ body) .capturing 0 := by
  induction body using List.reverseRecOn with
  | nil => exact feeds_start hs
  | append_singleton bs b ih =>
    rw [List.mem_append, List.mem_singleton, not_or] at hstart hcs
    rw [← List.append_assoc]
    exact (ih hstart.1 hcs.1).body (Ne.symm hstart.2) (Ne.symm hcs.2)

theorem feeds_window (hh₁ : h₁ ≠ 0x24#8) : Feeds s ([0x24#8] ++ body ++ [0x2A#8, h₁]) .inChecksum 1 := by
  have h := (feeds_body hs hstart hcs).marker.digit hh₁
  rwa [List.append_assoc _ [0x2A#8] [h₁]] at h

/-- Every proper beginning of a line is fed without a dispatch: the start marker and a part of the body, or the whole body
and one or two bytes of the rest. -/
theorem feeds_take (hh₁ : h₁ ≠ 0x24#8) {k : Nat} (h0 : 0 < k) (hk : k < (lineText body h₁ h₂).length) :
    ∃ st count, Feeds s ((lineText body h₁ h₂).take k) st count := by
  have hlen : (lineText body h₁ h₂).length = body.length + 4 := by simp [lineText]
  obtain hk | rfl | rfl : k ≤ body.length + 1 ∨ k = body.length + 2 ∨ k = body.length + 3 := by omega
  · have htake : (lineText body h₁ h₂).take k = [0x24#8] ++ body.take (k - 1) := by
      obtain ⟨j, rfl⟩ := Nat.exists_eq_add_of_lt h0
      rw [lineText, List.take_append_of_le_length (by simpa [Nat.add_comm] using hk)]
      simp
    rw [htake]
    exact ⟨_, _, feeds_body hs (fun hm => hstart (List.mem_of_mem_take hm)) fun hm => hcs (List.mem_of_mem_take hm)⟩
  · have htake : (lineText body h₁ h₂).take (body.length + 2) = [0x24#8] ++ body ++ [0x2A#8] := by
      simp [lineText, List.take_append]
    rw [htake]
    exact ⟨_, _, (feeds_body hs hstart hcs).marker⟩
  · have htake : (lineText body h₁ h₂).take (body.length + 3) = [0x24#8] ++ body ++ [0x2A#8, h₁] := by
      simp [lineText, List.take_append]
    rw [htake]
    exact ⟨_, _, feeds_window hs hstart hcs hh₁⟩

theorem exists_dispatched (hh₁ : h₁ ≠ 0x24#8) (hh₂ : h₂ ≠ 0x24#8) :
    ∃ t l, execAll (nmeaBurst (lineText body h₁ h₂)) s = .next t ∧ Dispatched s (lineText body h₁ h₂) l t := by
  have h := (feeds_window hs hstart hcs hh₁).dispatch hh₂
  rwa [List.append_assoc _ [0x2A#8, h₁] [h₂]] at h

end

/-- A line that fits is captured whole (42_nmea.md R134). -/
theorem Dispatched.eq_text {s t : State} {text l : List Byte} (h : Dispatched s text l t)
    (hfit : text.length ≤ s.params.nmeaBufLen) : l = text ∧ t.rxIndex = text.length := by
  obtain ⟨hindex, hbytes⟩ := h.buffered.1 (by rw [h.params]; exact hfit)
  refine ⟨List.ext_getElem? fun a => ?_, hindex⟩
  by_cases ha : a < text.length
  · rw [h.bytes a (hindex ▸ ha), hbytes a ha]
  · rw [List.getElem?_eq_none (by rw [h.length, hindex]; omega), List.getElem?_eq_none (by omega)]

/-- A line that does not fit is rejected: its start marker has been overwritten (42_nmea.md R136, R141). -/
theorem Dispatched.validate_overlong {s t : State} {text l : List Byte} (h : Dispatched s text l t)
    (hlong : s.params.nmeaBufLen < text.length) : validate s.params.nmeaHexLowerOk l = false := by
  by_contra hv
  rw [Bool.not_eq_false] at hv
  obtain ⟨body, h₁, h₂, _, _, rfl, _⟩ := (Sentence.validLinesAreTheWellFormedOnes _ l).mp hv
  have hpos : 0 < t.rxIndex := by
    rw [← h.length]
    simp
  exact h.buffered.2 (by rw [h.params]; exact hlong) (h.bytes 0 hpos).symm

theorem validate_lineText (lowerOk : Bool) (body : List Byte) (h₁ h₂ : Byte) :
    validate lowerOk (lineText body h₁ h₂) = checksumMatches lowerOk body h₁ h₂ := by
  rw [Bool.eq_iff_iff, lineText, Sentence.validate_cut]
  simp

/-- Settles O28: the beginnings are fed without a dispatch, and the buffer then holds the whole line. -/
theorem fittingLineIsDispatchedWhole : Obligations.FittingLineIsDispatchedWhole := by
  intro s body h₁ h₂ hs hstart hcs hh₁ hh₂ hfit
  have hlen : (lineText body h₁ h₂).length = body.length + 4 := by simp [lineText]
  refine ⟨fun k h0 hk => ?_, ?_⟩
  · obtain ⟨st, count, t, hrun, ht⟩ := feeds_take (h₂ := h₂) hs hstart hcs hh₁ h0 hk
    have htake : ((lineText body h₁ h₂).take k).length = k := List.length_take_of_le (Nat.le_of_lt hk)
    obtain ⟨hindex, hbytes⟩ := ht.buffered.1 (by rw [htake, ht.params]; exact hk.le.trans (hlen.trans_le hfit))
    rw [htake] at hindex hbytes
    refine ⟨t, hrun, by rw [ht.out]; rfl, ht.snapshot, hindex, fun a ha => ?_⟩
    rw [hbytes a ha, List.getElem?_take_of_lt ha, lineText]
  · obtain ⟨t, l, hrun, ht⟩ := exists_dispatched hs hstart hcs hh₁ hh₂
    obtain ⟨rfl, hindex⟩ := ht.eq_text (hlen.trans_le hfit)
    have hout := ht.out
    have hsnap := ht.snapshot
    rw [validate_lineText] at hout hsnap
    refine ⟨t, hrun, by rw [hout]; rfl, hsnap, ht.rxState, ht.rxCsCount, hindex, fun a ha => ?_, ht.modem, ht.checksum⟩
    exact (ht.bytes a (hindex ▸ ha)).symm

/-- Settles O29: the beginnings are fed without a dispatch, and then the captured bytes do not begin with a start marker. -/
theorem overlongLineIsRejected : Obligations.OverlongLineIsRejected := by
  intro s body h₁ h₂ hs hstart hcs hh₁ hh₂ hlong
  have hlen : (lineText body h₁ h₂).length = body.length + 4 := by simp [lineText]
  refine ⟨fun k h0 hk => ?_, ?_⟩
  · obtain ⟨st, count, t, hrun, ht⟩ := feeds_take (h₂ := h₂) hs hstart hcs hh₁ h0 hk
    exact ⟨t, hrun, ht.out, ht.snapshot⟩
  · obtain ⟨t, l, hrun, ht⟩ := exists_dispatched hs hstart hcs hh₁ hh₂
    have hreject := ht.validate_overlong (by rw [hlen]; exact hlong)
    have hout := ht.out
    have hsnap := ht.snapshot
    rw [hreject] at hout hsnap
    exact ⟨t, l, hrun, hout, ht.length, hsnap, ht.rxState⟩

/-! ### One inverted bit -/

/-- A digit is no start marker (30_encoding.md R74). -/
theorem ne_startMarker_of_hexVal {lowerOk : Bool} {b : Byte} {n : Nat} (h : hexVal lowerOk b = some n) : b ≠ 0x24#8 := by
  rintro rfl
  cases lowerOk <;> cases h

/-- The digits of a body do not match the body with one bit of it inverted (41_checksum.md R117). -/
theorem checksumMatches_flipped {lowerOk : Bool} {pre post : List Byte} {b h₁ h₂ : Byte} {j : Nat} (hj : j < 8)
    (hm : checksumMatches lowerOk (pre ++ b :: post) h₁ h₂ = true) :
    checksumMatches lowerOk (pre ++ (b ^^^ (1#8 <<< j)) :: post) h₁ h₂ = false := by
  by_contra hbad
  rw [Bool.not_eq_false] at hbad
  obtain ⟨x, y, hx, hy, hsum⟩ := Sentence.checksumMatches_iff.mp hm
  obtain ⟨x', y', hx', hy', hsum'⟩ := Sentence.checksumMatches_iff.mp hbad
  cases hx.symm.trans hx'
  cases hy.symm.trans hy'
  have hsame := BitVec.eq_of_toNat_eq (hsum'.trans hsum.symm)
  rw [Checksum.xor8_change] at hsame
  have hbit := congrArg (BitVec.getLsbD · j) hsame
  simp [hj] at hbit

/-- Settles O30: the digits match the valid line's body, so they do not match the corrupted one, which is dispatched whole
with that verdict. -/
theorem singleBitCorruptionIsRejected : Obligations.SingleBitCorruptionIsRejected := by
  intro s pre post b h₁ h₂ j hs hj body bad _ _ hstart hcs hfit hvalid
  have hm := (validate_lineText ..).symm.trans hvalid
  obtain ⟨_, _, hx, hy, _⟩ := Sentence.checksumMatches_iff.mp hm
  have hlen : bad.length = body.length := by simp [bad, body]
  obtain ⟨_, t, hrun, hd, hsnap, _⟩ := fittingLineIsDispatchedWhole s bad h₁ h₂ hs hstart hcs
    (ne_startMarker_of_hexVal hx) (ne_startMarker_of_hexVal hy) (by rw [hlen]; exact hfit)
  rw [checksumMatches_flipped hj hm] at hd hsnap
  exact ⟨t, hrun, hd, hsnap⟩

end Sys2Proof.Capture
end
